-- ==== Sys2Proof/Word.lean ====
section
/-! DEFINITION. Word.lean: the two bit widths of the core. A datum is one 8-bit byte (R12, R14); a command is one
10-bit word (R55). All arithmetic is unsigned (R14). -/

namespace Sys2Proof

/-- One datum: an unsigned 8-bit value, bit 0 the least significant (R12, R14). -/
abbrev Byte := BitVec 8

/-- One command word `cmd[9:0]` (R55). -/
abbrev CmdWord := BitVec 10

end Sys2Proof
end

