-- ==== Sys2Proof/Syntax.lean ====
section
/-! DEFINITION. Syntax.lean: the command ports and the commands, one constructor of `Instr` per row of
spec/opcode_table.json. -/

namespace Sys2Proof

/-- A command port. "Each ENC instance has its own command port. Each DEC instance has its own command port" (R56), so a
port names an instance: `enc k` is the `k`-th ENC instance of the platform, `dec k` the `k`-th DEC instance (R13). -/
inductive Port where
  | enc (k : Nat)
  | dec (k : Nat)
  deriving DecidableEq, Repr

/-- A command together with the instance whose port it is given on. The word itself holds the operation and the data byte
only (R55); the instance is the port's (R56). -/
inductive Instr where
  /-- `ENC_INGEST b` on the port of the `k`-th ENC instance (R76). -/
  | encIngest (k : Nat) (b : Byte)
  /-- `ENC_FLUSH` on the port of the `k`-th ENC instance (R80). -/
  | encFlush (k : Nat)
  /-- `DEC_INGEST b` on the port of the `k`-th DEC instance (R90). -/
  | decIngest (k : Nat) (b : Byte)
  deriving DecidableEq, Repr

/-- The port a command is given on (the `port` column of the opcode table). -/
def Instr.port : Instr → Port
  | .encIngest k _ => .enc k
  | .encFlush k => .enc k
  | .decIngest k _ => .dec k

/-- The command's mnemonic (R67). -/
def Instr.mnemonic : Instr → String
  | .encIngest _ _ => "ENC_INGEST"
  | .encFlush _ => "ENC_FLUSH"
  | .decIngest _ _ => "DEC_INGEST"

end Sys2Proof
end

