-- ==== Sys2Proof/Decode.lean ====
section
/-! DEFINITION. Decode.lean: reading a 10-bit command word on a port (R55-R62) and writing one. The word format is the
spec's own decision D4. Decoding is total: a word is a command of that port's map or reserved (R59). -/

namespace Sys2Proof

/-- `op`, bits 9 to 8 of the word (R55). -/
def cmdOp (w : CmdWord) : BitVec 2 := w.extractLsb' 8 2

/-- `data`, bits 7 to 0 of the word: the only operand, taken as is (R55, R60). -/
def cmdData (w : CmdWord) : Byte := w.extractLsb' 0 8

/-- The word with these two fields, `op` in the more significant bits (R14, R55). -/
def cmdWord (op : BitVec 2) (data : Byte) : CmdWord := op ++ data

/-- What a word on a port is (R59): one command, or reserved. -/
inductive Decoded where
  | command (i : Instr)
  | reserved (p : Port) (w : CmdWord)
  deriving DecidableEq, Repr

/-- The word of `ENC_FLUSH` (R57). -/
def flushWord : CmdWord := 0x100#10

/-- `decodeEnc` of R59, on the port of the `k`-th ENC instance. -/
def decodeEnc (k : Nat) (w : CmdWord) : Decoded :=
  if cmdOp w = 0b00#2 then .command (.encIngest k (cmdData w))
  else if w = flushWord then .command (.encFlush k)
  else .reserved (.enc k) w

/-- `decodeDec` of R59, on the port of the `k`-th DEC instance. -/
def decodeDec (k : Nat) (w : CmdWord) : Decoded :=
  if cmdOp w = 0b00#2 then .command (.decIngest k (cmdData w))
  else .reserved (.dec k) w

/-- The op values are interpreted per port (R56). -/
def decode (p : Port) (w : CmdWord) : Decoded :=
  match p with
  | .enc k => decodeEnc k w
  | .dec k => decodeDec k w

/-- The port and the word of a command, from the opcode maps R57 and R58. -/
def encode (i : Instr) : Port × CmdWord :=
  match i with
  | .encIngest k b => (.enc k, cmdWord 0b00#2 b)
  | .encFlush k => (.enc k, cmdWord 0b01#2 0x00#8)
  | .decIngest k b => (.dec k, cmdWord 0b00#2 b)

/-- `match` and `mask` of a command's row of the opcode table (R57, R58). -/
def tableRow (i : Instr) : CmdWord × CmdWord :=
  match i with
  | .encIngest _ _ => (0x000#10, 0x300#10)
  | .encFlush _ => (0x100#10, 0x3FF#10)
  | .decIngest _ _ => (0x000#10, 0x300#10)

/-- The command in a decoded word, if it is one. -/
def Decoded.command? : Decoded → Option Instr
  | .command i => some i
  | .reserved _ _ => none

/-- The command that the decoder reads from the table's bits `w` (bit 0 the least significant bit of the one command
word). The table gives a word no port, and the same word is ENC_INGEST on an ENC port and DEC_INGEST on a DEC port (R56):
this reads it on the port of ENC instance 0 (DESIGN CHOICE, log entry 8, safe). A value that needs more than the ten bits of a
command word is no command (DESIGN CHOICE, log entry 8, safe; R62 knows ten-bit words only). -/
def decodeTableWord (nbits w : Nat) : Option Instr :=
  let bits := w % 2 ^ nbits
  if bits < 1024 then (decode (.enc 0) (BitVec.ofNat 10 bits)).command? else none

end Sys2Proof
end

