-- ==== Sys2Proof/Config.lean ====
section
/-! DEFINITION. Config.lean: what is fixed for the core (R9, R10, R11), the default of its one parameter (R8), and the
parameters that the spec leaves OPEN (R13, R147). ESC itself is a field of each instance (R8: "The model takes ESC as an
argument of each instance"), so it is not a constant here. -/

namespace Sys2Proof.Config

/-- Default of the parameter ESC (R8). -/
def defaultEsc : Byte := 0xFA#8

/-- `MAX_RUN`: the largest run an encoder holds and the largest count of a frame (R9). -/
def maxRun : Byte := 255#8

/-- `LITERAL_MAX`: the largest run of a non-escape byte that is emitted literally (R10). -/
def literalMax : Byte := 3#8

/-- A frame is exactly three bytes (R11). -/
def frameLength : Nat := 3

/-- DESIGN CHOICE (log entry 2, unsafe): the escape bytes of the ENC instances of the platform that `State.reset` describes; the
length of the list is `n_enc`, which R13 leaves OPEN. `State.launch` takes any other list. -/
def resetEncs : List Byte := [defaultEsc]

/-- DESIGN CHOICE (log entry 2, unsafe): the same for the DEC instances and `n_dec` (R13). -/
def resetDecs : List Byte := [defaultEsc]

/-- OPEN parameter behind `cmd_latency`: it has no body, so no proof can use its value (R147, D15). -/
opaque extraCmdCycles : Nat

/-- OPEN parameter behind `byte_latency`: it has no body, so no proof can use its value (R147, D15). -/
opaque extraByteCycles : Nat

/-- `cmd_latency`: any positive number of cycles; no rule of the model reads it (R147, D15). -/
def cmdLatency : Nat := extraCmdCycles + 1

/-- `byte_latency`: any positive number of cycles; no rule of the model reads it (R147, D15). -/
def byteLatency : Nat := extraByteCycles + 1

end Sys2Proof.Config
end

