-- ==== Sys2Proof/Machine/State.lean ====
section
/-! DEFINITION. Machine/State.lean: everything the spec gives the machine, as plain data. "Each instance holds exactly the
state listed below and nothing else" (R21): ENC pendingByte and runLength, DEC phase and pendingByte; beside them the
instance's parameter ESC (R8), its output stream (R34) and the state of its output port (R45, R141). The core has no
memory (R40), no program counter (R20), no flags and no control or status registers (R32, R33). -/

namespace Sys2Proof.Machine

/-- `dec.phase` (R27): "The model represents phase as a type with exactly three values". -/
inductive Phase where
  | normal
  | sawEscape
  | sawEscapeAndByte
  deriving DecidableEq, Repr

/-- A `pendingByte` register (R22, R28): its 8 bits, and whether it holds a value. R21 gives its legal values as "0x00 to
0xFF, or no value before the first write": `written = false` is "no value". Read it through `PendingReg.read?`. -/
structure PendingReg where
  byte    : Byte
  written : Bool
  deriving DecidableEq, Repr

/-- An instance's output port and stream: `out` is every byte emitted since the launch (R34); the last `undelivered` of
them have not been accepted by the sink yet, and while there are any the instance is busy (R141); `ready` is the port's
ready line, which the sink drives (R45). -/
structure SinkPort where
  out         : List Byte
  undelivered : Nat
  ready       : Bool
  deriving DecidableEq, Repr

/-- One ENC instance (R21-R23, R31, R34). `runLength` is 8 bits, unsigned, 0 when no run is open (R23). -/
structure EncInst where
  esc       : Byte
  pending   : PendingReg
  runLength : Byte
  sink      : SinkPort
  deriving DecidableEq, Repr

/-- One DEC instance (R21, R27, R28, R31, R34). -/
structure DecInst where
  esc     : Byte
  phase   : Phase
  pending : PendingReg
  sink    : SinkPort
  deriving DecidableEq, Repr

/-- What an agent outside the instances does (R115, R118, R119). -/
inductive Input where
  /-- The host of `p` holds the word `w` on its command port until the instance accepts it (R55, R141). -/
  | offer (p : Port) (w : CmdWord)
  /-- The host of `p` resets the instance between two commands: the reset step of R132, "defined only while the instance is
  idle". `together` is a command word offered at the same time, which "is not accepted; the host must offer it again after
  reset" (R115). -/
  | reset (p : Port) (together : Option CmdWord)
  /-- A reset of `p` that may arrive "in the middle of a command's output delivery": the hardware event of R130 and R115, not
  the reset step (R132). -/
  | resetDuringOutput (p : Port) (together : Option CmdWord)
  /-- One output cycle of `p`: a byte moves if valid and ready are both high (R45, R118). -/
  | transfer (p : Port)
  /-- The sink of `p` drives its ready line (R45). -/
  | sinkReady (p : Port) (r : Bool)
  deriving DecidableEq, Repr

/-- The platform: its ENC and DEC instances (R13, R123), and what the hosts and sinks do next, oldest first. `inputs` is
the model's own field (DESIGN CHOICE, log entry 5, safe): the sequence of commands is the host's, not the core's (R20,
R118). -/
structure State where
  encs   : List EncInst
  decs   : List DecInst
  inputs : List Input
  deriving DecidableEq, Repr

/-- Why the machine stops with a fault. The core itself raises no exception (R110). -/
inductive Fault where
  /-- Raised when a rule reads a `pendingByte` that holds no value (R113): by FlushCore, ENC_INGEST (case 2 test) and
  DEC_INGEST (phase SawEscapeAndByte, a count other than 0). It never fires in a state reachable from reset (R26, R29). Safe. -/
  | readUnwrittenPending
  deriving DecidableEq, Repr

/-- Why a step gives no meaning. -/
inductive Refusal where
  /-- An instruction without a meaning yet; no arm of `exec` answers with it. Safe. -/
  | notModelled (mnemonic : String)
  /-- Raised by a step that meets a reserved word on a port: `refused(ReservedCommand, port, word)` (R61, R112). Safe. -/
  | reservedCommand (p : Port) (w : CmdWord)
  /-- Raised when a command or an input names a port that the platform does not have (R13, R56; DESIGN CHOICE, log entry 3). Safe. -/
  | noSuchPort (p : Port)
  /-- Raised by the reset step of an instance that still has output bytes to deliver: "`refuse`: no model step" (U6, R132,
  D10). The hardware event has an input of its own, `Input.resetDuringOutput`. Safe. -/
  | resetWhileBusy (p : Port)
  deriving DecidableEq, Repr

/-- A `pendingByte` register that holds no value (R35). Its bits are 0x00: DESIGN CHOICE, log entry 1, unsafe; no rule
reads them (R26, R29, R113). -/
def PendingReg.noValue : PendingReg := { byte := 0x00#8, written := false }

/-- An output port at launch: nothing emitted (R35), idle (R130), the sink ready (DESIGN CHOICE, log entry 4, unsafe). -/
def SinkPort.launch : SinkPort := { out := [], undelivered := 0, ready := true }

/-- An ENC instance built with the escape byte `esc`, after its first reset (R35, R130). -/
def EncInst.launch (esc : Byte) : EncInst :=
  { esc := esc, pending := .noValue, runLength := 0#8, sink := .launch }

/-- A DEC instance built with the escape byte `esc`, after its first reset (R35, R130). -/
def DecInst.launch (esc : Byte) : DecInst :=
  { esc := esc, phase := .normal, pending := .noValue, sink := .launch }

/-- A platform right after reset: one ENC per escape byte of the first list, one DEC per escape byte of the second, and
nothing offered. The counts and the escape bytes are parameters (R8, R13). -/
def State.launch (encEscs decEscs : List Byte) : State :=
  { encs := encEscs.map EncInst.launch, decs := decEscs.map DecInst.launch, inputs := [] }

/-- The machine right after reset (R35, R130), on the platform of log entry 2 (DESIGN CHOICE, unsafe): one ENC and one DEC,
both with the default escape byte. -/
def State.reset : State := .launch Config.resetEncs Config.resetDecs

end Sys2Proof.Machine
end

