-- ==== Sys2Proof/Machine/Ops.lean ====
section
/-! DEFINITION. Machine/Ops.lean: the named operations on registers, output ports and instances. There is no exception
operation: the core raises no exception and has no trap entry or return (R110, R116, R117). -/

namespace Sys2Proof.Machine

/-- The value a `pendingByte` register holds, if it holds one: R39's `Option Byte` view. Every read goes through it. -/
def PendingReg.read? (r : PendingReg) : Option Byte :=
  if r.written then some r.byte else none

/-- `pendingByte <- b`. -/
def PendingReg.write (b : Byte) : PendingReg := { byte := b, written := true }

/-- `Emit(v)` (R16): `out <- out ++ [v]`; the byte then waits for the sink (R141). -/
def SinkPort.emit (v : Byte) (q : SinkPort) : SinkPort :=
  { q with out := q.out ++ [v], undelivered := q.undelivered + 1 }

/-- `Emit` of each byte in order (R16, R49). -/
def SinkPort.emitAll (vs : List Byte) (q : SinkPort) : SinkPort :=
  { q with out := q.out ++ vs, undelivered := q.undelivered + vs.length }

/-- The bytes the sink has accepted: all but the undelivered ones. -/
def SinkPort.delivered (q : SinkPort) : List Byte := q.out.take (q.out.length - q.undelivered)

/-- The instance accepts no command while an output byte waits (R141). -/
def SinkPort.busy (q : SinkPort) : Bool := q.undelivered != 0

/-- One output cycle: the oldest waiting byte moves to the sink if the port is valid and ready (R45). -/
def SinkPort.transfer (q : SinkPort) : SinkPort :=
  if q.busy && q.ready then { q with undelivered := q.undelivered - 1 } else q

/-- Reset of an output port: bytes already accepted stay delivered, the others are discarded, and the instance is idle
(R130, R115). An idle port keeps its stream (R34). The ready line is the sink's. -/
def SinkPort.reset (q : SinkPort) : SinkPort := { q with out := q.delivered, undelivered := 0 }

/-- All waiting bytes are accepted. -/
def SinkPort.settle (q : SinkPort) : SinkPort := { q with undelivered := 0 }

/-- The sink drives its ready line (R45). -/
def SinkPort.setReady (r : Bool) (q : SinkPort) : SinkPort := { q with ready := r }

/-- Change the output port of an ENC instance. -/
def EncInst.onSink (f : SinkPort → SinkPort) (e : EncInst) : EncInst := { e with sink := f e.sink }

/-- Change the output port of a DEC instance. -/
def DecInst.onSink (f : SinkPort → SinkPort) (d : DecInst) : DecInst := { d with sink := f d.sink }

/-- Reset of an ENC instance (R130): the open run is discarded without output, `pendingByte` holds no value, ESC stays. -/
def EncInst.reset (e : EncInst) : EncInst :=
  { esc := e.esc, pending := .noValue, runLength := 0#8, sink := e.sink.reset }

/-- Reset of a DEC instance (R130): the partial frame is discarded without output. -/
def DecInst.reset (d : DecInst) : DecInst :=
  { esc := d.esc, phase := .normal, pending := .noValue, sink := d.sink.reset }

/-- Replace the `k`-th ENC instance. -/
def State.setEnc (s : State) (k : Nat) (e : EncInst) : State := { s with encs := s.encs.set k e }

/-- Replace the `k`-th DEC instance. -/
def State.setDec (s : State) (k : Nat) (d : DecInst) : State := { s with decs := s.decs.set k d }

/-- Replace what the hosts and sinks do next. -/
def State.setInputs (s : State) (is : List Input) : State := { s with inputs := is }

/-- One atomic transition of the `k`-th ENC instance (R52); every other instance is left alone (R37). -/
def onEnc (k : Nat) (f : EncInst → Except Fault EncInst) (s : State) : Host.Outcome State Fault Refusal :=
  match s.encs[k]? with
  | none => .refused (.noSuchPort (.enc k))
  | some e =>
    match f e with
    | .error r => .fault r
    | .ok e' => .next (s.setEnc k e')

/-- One atomic transition of the `k`-th DEC instance (R52); every other instance is left alone (R37). -/
def onDec (k : Nat) (f : DecInst → Except Fault DecInst) (s : State) : Host.Outcome State Fault Refusal :=
  match s.decs[k]? with
  | none => .refused (.noSuchPort (.dec k))
  | some d =>
    match f d with
    | .error r => .fault r
    | .ok d' => .next (s.setDec k d')

/-- The output port of the instance on a command port, if the platform has it. -/
def State.sinkAt? (s : State) (p : Port) : Option SinkPort :=
  match p with
  | .enc k => s.encs[k]?.map EncInst.sink
  | .dec k => s.decs[k]?.map DecInst.sink

/-- Change the output port of the instance on a command port. -/
def State.onSinkAt (p : Port) (f : SinkPort → SinkPort) (s : State) : State :=
  match p with
  | .enc k => { s with encs := s.encs.modify k (EncInst.onSink f) }
  | .dec k => { s with decs := s.decs.modify k (DecInst.onSink f) }

/-- Reset the instance on a command port; no other instance is affected (R133). -/
def State.resetAt (p : Port) (s : State) : State :=
  match p with
  | .enc k => { s with encs := s.encs.modify k EncInst.reset }
  | .dec k => { s with decs := s.decs.modify k DecInst.reset }

/-- Every sink has one output cycle (R118): what happens while no input can happen (DESIGN CHOICE, log entry
6, unsafe). -/
def State.transferAll (s : State) : State :=
  { s with encs := s.encs.map (EncInst.onSink SinkPort.transfer),
           decs := s.decs.map (DecInst.onSink SinkPort.transfer) }

end Sys2Proof.Machine
end

