-- ==== Sys2Proof/Machine/Flags.lean ====
section
/-! DEFINITION. Machine/Flags.lean: the core has no flags and no condition codes (R33), so no command writes one. Here are
the predicates on state that the spec names: `encOpen`, `decAtRest` (R33), and the framing decision's condition (R73). -/

namespace Sys2Proof.Machine

/-- `encOpen(enc) := enc.runLength != 0`: a run is open (R33). -/
def encOpen (e : EncInst) : Bool := e.runLength != 0#8

/-- `decAtRest(dec) := dec.phase == Normal` (R33, R97). -/
def decAtRest (d : DecInst) : Bool := d.phase == .normal

/-- The encoder's framing condition: `runLength > 3 or pendingByte == ESC` (R73, R10). -/
def needsFrame (esc p n : Byte) : Bool := decide (Config.literalMax < n) || p == esc

end Sys2Proof.Machine
end

