-- ==== Sys2Proof/Machine/Operands.lean ====
section
/-! DEFINITION. Machine/Operands.lean: the forms a byte takes as an operand or in a stream. The only operand is the data
byte, taken as is (R60); as a repeat count it is the unsigned integer 0 to 255 (R60, R43). -/

namespace Sys2Proof.Machine

/-- A count byte read as an unsigned integer, no bias and no offset (R43, R60). -/
def repeatCount (b : Byte) : Nat := b.toNat

/-- `repeat n times: Emit(v)`, as the bytes emitted (R16). -/
def repeated (v : Byte) (n : Nat) : List Byte := List.replicate n v

/-- The frame `[ESC, byte, count]`: escape byte first, run byte second, count third (R11, R42). -/
def frameBytes (esc x n : Byte) : List Byte := [esc, x, n]

/-- The 2-bit code of a phase (R27, D12). -/
def Phase.code : Phase → BitVec 2
  | .normal => 0b00#2
  | .sawEscape => 0b01#2
  | .sawEscapeAndByte => 0b10#2

/-- The phase of a 2-bit code: 0b11 is no phase (R27). -/
def Phase.ofCode? (c : BitVec 2) : Option Phase :=
  if c = 0b00#2 then some .normal
  else if c = 0b01#2 then some .sawEscape
  else if c = 0b10#2 then some .sawEscapeAndByte
  else none

end Sys2Proof.Machine
end

