-- ==== Sys2Proof/Machine/Decoder.lean ====
section
/-! DEFINITION. Machine/Decoder.lean: the command of a DEC instance, DEC_INGEST (R90). -/

namespace Sys2Proof.Machine

/-- `DEC_INGEST b` on one instance (R90, R91). A count of 0 repeats `Emit(dec.pendingByte)` zero times, so it reads no
`pendingByte` (R93). -/
def decIngestOn (b : Byte) (d : DecInst) : Except Fault DecInst :=
  match d.phase with
  | .normal =>
    if b = d.esc then .ok { d with phase := .sawEscape }
    else .ok { d with sink := d.sink.emit b }
  | .sawEscape => .ok { d with pending := .write b, phase := .sawEscapeAndByte }
  | .sawEscapeAndByte =>
    if repeatCount b = 0 then .ok { d with phase := .normal }
    else
      match d.pending.read? with
      | none => .error .readUnwrittenPending
      | some x => .ok { d with phase := .normal, sink := d.sink.emitAll (repeated x (repeatCount b)) }

/-- DEC_INGEST (R90): one atomic transition of the `k`-th DEC instance (R52). -/
def execDecIngest (k : Nat) (b : Byte) (s : State) : Host.Outcome State Fault Refusal :=
  onDec k (decIngestOn b) s

end Sys2Proof.Machine
end

