-- ==== Sys2Proof/Machine/Encoder.lean ====
section
/-! DEFINITION. Machine/Encoder.lean: the commands of an ENC instance, ENC_INGEST (R76) and ENC_FLUSH (R80), over the
shared procedure FlushCore (R73). -/

namespace Sys2Proof.Machine

/-- What FlushCore emits for an open run of `n` times `p` (R73, R75). -/
def flushBytes (esc p n : Byte) : List Byte :=
  if needsFrame esc p n then frameBytes esc p n else repeated p (repeatCount n)

/-- Start a run: `pendingByte <- b; runLength <- 1` (R76, cases 1 and 3). -/
def EncInst.startRun (b : Byte) (e : EncInst) : EncInst := { e with pending := .write b, runLength := 1#8 }

/-- `runLength <- runLength + 1` (R76, case 2), in 8 bits: from 255, a value no state between commands has (R25), it would
wrap (DEDUCED, log entry 9, unsafe). -/
def EncInst.countUp (e : EncInst) : EncInst := { e with runLength := e.runLength + 1#8 }

/-- Emit the open run of `p` and close it; `pendingByte` is left unchanged (R73, D8). -/
def EncInst.closeRun (p : Byte) (e : EncInst) : EncInst :=
  { e with runLength := 0#8, sink := e.sink.emitAll (flushBytes e.esc p e.runLength) }

/-- `FlushCore` (R73): nothing if no run is open, else the run is emitted and closed. -/
def flushCore (e : EncInst) : Except Fault EncInst :=
  if encOpen e then
    match e.pending.read? with
    | none => .error .readUnwrittenPending
    | some p => .ok (e.closeRun p)
  else .ok e

/-- `ENC_INGEST b` on one instance (R76). The open-run test comes first, so a stale `pendingByte` is never compared. -/
def encIngestOn (b : Byte) (e : EncInst) : Except Fault EncInst :=
  if encOpen e then
    match e.pending.read? with
    | none => .error .readUnwrittenPending
    | some p =>
      if b = p then
        -- case 2: the open run continues, and is flushed at once when it reaches 255 (R74, C3)
        if e.countUp.runLength = Config.maxRun then flushCore e.countUp else .ok e.countUp
      else
        -- case 3: the open run ends
        match flushCore e with
        | .error r => .error r
        | .ok e' => .ok (e'.startRun b)
  else
    -- case 1: no run open
    .ok (e.startRun b)

/-- ENC_INGEST (R76): one atomic transition of the `k`-th ENC instance (R52). -/
def execEncIngest (k : Nat) (b : Byte) (s : State) : Host.Outcome State Fault Refusal :=
  onEnc k (encIngestOn b) s

/-- ENC_FLUSH (R80): the `k`-th ENC instance runs FlushCore. -/
def execEncFlush (k : Nat) (s : State) : Host.Outcome State Fault Refusal :=
  onEnc k flushCore s

end Sys2Proof.Machine
end

