-- ==== Sys2Proof/Machine/Dispatch.lean ====
section
/-! DEFINITION. Machine/Dispatch.lean: the meaning of each command, one arm per constructor of `Instr`. -/

namespace Sys2Proof.Machine

/-- An accepted command runs to completion (R52). Whether it is accepted is the step's matter: the busy rule R141 stands
there (DEDUCED, log entry 10, safe). -/
def exec (i : Instr) (s : State) : Host.Outcome State Fault Refusal :=
  match i with
  | .encIngest k b => Sys2Proof.Machine.execEncIngest k b s
  | .encFlush k => Sys2Proof.Machine.execEncFlush k s
  | .decIngest k b => Sys2Proof.Machine.execDecIngest k b s

end Sys2Proof.Machine
end

