-- ==== Sys2Proof/Machine/Agents.lean ====
section
/-! DEFINITION. Machine/Agents.lean: the steps of the agents of R118 (host, instance, sink) at one instance's ports: a
command offered, an output byte accepted, a reset (R115). -/

namespace Sys2Proof.Machine

/-- An idle instance accepts the word offered on its port: the command runs, or the word is reserved and the model refuses
it (R59, R112). A refusal or a fault at one instance ends the run of the whole platform (DESIGN CHOICE, log entry 15, safe):
R112 speaks of the run that carries the mark, and the spec says nothing of the other instances' runs. -/
def acceptCommand (p : Port) (w : CmdWord) (s : State) : Host.Outcome State Fault Refusal :=
  match decode p w with
  | .command i => exec i s
  | .reserved p' w' => .refused (.reservedCommand p' w')

/-- The port at which an input happens. -/
def Input.port (x : Input) : Port :=
  match x with
  | .offer p _ => p
  | .reset p _ => p
  | .resetDuringOutput p _ => p
  | .transfer p => p
  | .sinkReady p _ => p

/-- The port whose host does the input; none for what a sink does (R118). -/
def Input.hostPort? (x : Input) : Option Port :=
  match x with
  | .offer p _ => some p
  | .reset p _ => some p
  | .resetDuringOutput p _ => some p
  | .transfer _ => none
  | .sinkReady _ _ => none

/-- The instance on `p` has an output byte to deliver, so it accepts no command (R141). -/
def State.busyAt (p : Port) (s : State) : Bool :=
  match s.sinkAt? p with
  | none => false
  | some q => q.busy

/-- The input cannot happen yet: a word offered on the port of a busy instance is not accepted (R115, R141), and what the
same host does after such a word comes after it (`held` lists the ports of the waiting inputs before this one). What a sink
does never waits. -/
def State.waits (s : State) (held : List Port) (x : Input) : Bool :=
  match x with
  | .offer p _ => s.busyAt p
  | .reset p _ => held.contains p
  | .resetDuringOutput p _ => held.contains p
  | .transfer _ => false
  | .sinkReady _ _ => false

/-- The oldest input that can happen now, with the others in their order. An input that waits at one instance holds up no
event of another instance: these are independent and unordered (R115, R50). -/
def State.nextInput? (s : State) (held : List Port) (is : List Input) : Option (Input × List Input) :=
  match is with
  | [] => none
  | x :: rest =>
    if s.waits held x then (s.nextInput? (x.port :: held) rest).map fun c => (c.1, x :: c.2)
    else some (x, rest)

/-- The host holds `w` on the port `p` of an instance that is not busy (`State.waits`), and the instance accepts it. -/
def offerCommand (p : Port) (w : CmdWord) (s : State) : Host.Outcome State Fault Refusal :=
  match s.sinkAt? p with
  | none => .refused (.noSuchPort p)
  | some _ => acceptCommand p w s

/-- An input at a port that does not wait: it changes the state if the platform has the port. -/
def atPort (p : Port) (f : State → State) (s : State) : Host.Outcome State Fault Refusal :=
  match s.sinkAt? p with
  | none => .refused (.noSuchPort p)
  | some _ => .next (f s)

/-- The reset step: "defined only while the instance is idle, that is between two commands" (R132). At an instance with
output bytes to deliver there is no step, and the model refuses (U6, D10). -/
def resetStep (p : Port) (s : State) : Host.Outcome State Fault Refusal :=
  match s.sinkAt? p with
  | none => .refused (.noSuchPort p)
  | some q => if q.busy then .refused (.resetWhileBusy p) else .next (s.resetAt p)

/-- One input happens, in the state without it. A reset wins over a command offered at the same time, which is not accepted
(R115); the hardware event of a reset during delivery (R130) is an input of its own (DEDUCED, log entry 7, unsafe). -/
def perform (x : Input) (s : State) : Host.Outcome State Fault Refusal :=
  match x with
  | .offer p w => offerCommand p w s
  | .reset p _ => resetStep p s
  | .resetDuringOutput p _ => atPort p (State.resetAt p) s
  | .transfer p => atPort p (State.onSinkAt p SinkPort.transfer) s
  | .sinkReady p r => atPort p (State.onSinkAt p (SinkPort.setReady r)) s

/-- One step of the machine (the order is DESIGN CHOICE, log entries 5 and 6): the oldest input that can happen, or, when
there is none, one output cycle of every sink. A sink that is not ready takes nothing, and its instance stays busy: the hang
of R144, in which the other instances go on. With nothing offered and nothing waiting, an instance holds its state (R125). -/
def stepMachine (s : State) : Host.Outcome State Fault Refusal :=
  match s.nextInput? [] s.inputs with
  | none => .next s.transferAll
  | some c => perform c.1 (s.setInputs c.2)

/-- A list of commands accepted one after another: a "program" in the sense of R72. -/
def execAll (is : List Instr) (s : State) : Host.Outcome State Fault Refusal :=
  match is with
  | [] => .next s
  | i :: rest =>
    match exec i s with
    | .next t => execAll rest t
    | .fault r => .fault r
    | .refused r => .refused r

/-- Make the word with the table's bits `w` the next thing the machine meets: offered on the port of ENC instance 0
(DESIGN CHOICE, log entry 8, safe), which is idle, its waiting bytes being accepted. A port takes ten bits (R55), so of a value
that needs more only the low ten are offered (DESIGN CHOICE, log entry 8, safe): decodeTableWord calls such a value no
command, and no row of the table has one. -/
def placeWord (nbits w : Nat) (s : State) : State :=
  (s.onSinkAt (.enc 0) SinkPort.settle).setInputs (.offer (.enc 0) (BitVec.ofNat 10 (w % 2 ^ nbits)) :: s.inputs)

end Sys2Proof.Machine
end

