-- ==== Sys2Proof/Machine/Step.lean ====
section
/-! DEFINITION. Machine/Step.lean: one step of the machine, and how the host of this package places a word. -/

namespace Sys2Proof.Machine

/-- One step: one event of one agent (R118). -/
def step (s : State) : Host.Outcome State Fault Refusal := stepMachine s

/-- `s` with the table's word `w` offered next, on the port of ENC instance 0, so that the very next step runs it. -/
def State.withFetchWord (s : State) (nbits w : Nat) : State := placeWord nbits w s

end Sys2Proof.Machine
end

