-- ==== Sys2Proof/Machine/Pseudo.lean ====
section
/-! DEFINITION. Machine/Pseudo.lean: the assembler syntax and the pseudo-operations of R67 to R70. They are "host-side
expansions, not commands" (R68): each expands to a list of commands and has no encoding of its own. -/

namespace Sys2Proof.Machine

/-- `ENC_INGEST_BUFFER [b0, ..., b(n-1)]` on ENC instance `k` (R68). -/
def encIngestBuffer (k : Nat) (bs : List Byte) : List Instr := bs.map (.encIngest k)

/-- `DEC_INGEST_BUFFER [b0, ..., b(n-1)]` on DEC instance `k` (R68). -/
def decIngestBuffer (k : Nat) (bs : List Byte) : List Instr := bs.map (.decIngest k)

/-- The bytes of a null-terminated string: those before its first 0x00, which is not one of them (R69, D18). -/
def stringBytes (bs : List Byte) : List Byte := bs.takeWhile (fun b => b != 0x00#8)

/-- `ENC_INGEST_STRING s` on ENC instance `k` (R69). -/
def encIngestString (k : Nat) (bs : List Byte) : List Instr := encIngestBuffer k (stringBytes bs)

/-- `DEC_INGEST_STRING s` on DEC instance `k` (R69). -/
def decIngestString (k : Nat) (bs : List Byte) : List Instr := decIngestBuffer k (stringBytes bs)

/-- `write`, one more name for a buffer ingest (R70). -/
def encWrite (k : Nat) (bs : List Byte) : List Instr := encIngestBuffer k bs

/-- `write` on a decoder (R70). -/
def decWrite (k : Nat) (bs : List Byte) : List Instr := decIngestBuffer k bs

/-- `<byte>` in the assembler syntax: a hex literal or a quoted character (R67). -/
inductive AsmByte where
  | hex (b : Byte)
  | char (c : Char)
  deriving DecidableEq, Repr

/-- The byte an operand stands for: a quoted character is its ASCII value (R14, R67); a character outside ASCII has none
(DESIGN CHOICE, log entry 12, safe). -/
def AsmByte.value? : AsmByte → Option Byte
  | .hex b => some b
  | .char c => if c.toNat < 128 then some (BitVec.ofNat 8 c.toNat) else none

/-- One line of a program (R67), pseudo-operations included (R68, R69). -/
inductive AsmLine where
  | encIngest (b : AsmByte)
  | encFlush
  | decIngest (b : AsmByte)
  | encIngestBuffer (bs : List AsmByte)
  | encIngestString (bs : List AsmByte)
  | decIngestBuffer (bs : List AsmByte)
  | decIngestString (bs : List AsmByte)
  deriving DecidableEq, Repr

/-- The bytes of a list of operands, if each has one. -/
def asmBytes : List AsmByte → Option (List Byte)
  | [] => some []
  | a :: as =>
    match a.value?, asmBytes as with
    | some b, some bs => some (b :: bs)
    | _, _ => none

/-- The commands a line stands for in a block of the port `p`, written `ENC:` or `DEC:` (R67); a line of the other kind of
port has none. -/
def AsmLine.commands? (p : Port) (l : AsmLine) : Option (List Instr) :=
  match p, l with
  | .enc k, .encIngest b => b.value?.map fun v => [.encIngest k v]
  | .enc k, .encFlush => some [.encFlush k]
  | .enc k, .encIngestBuffer bs => (asmBytes bs).map (Sys2Proof.Machine.encIngestBuffer k)
  | .enc k, .encIngestString bs => (asmBytes bs).map (Sys2Proof.Machine.encIngestString k)
  | .dec k, .decIngest b => b.value?.map fun v => [.decIngest k v]
  | .dec k, .decIngestBuffer bs => (asmBytes bs).map (Sys2Proof.Machine.decIngestBuffer k)
  | .dec k, .decIngestString bs => (asmBytes bs).map (Sys2Proof.Machine.decIngestString k)
  | .enc _, .decIngest _ => none
  | .enc _, .decIngestBuffer _ => none
  | .enc _, .decIngestString _ => none
  | .dec _, .encIngest _ => none
  | .dec _, .encFlush => none
  | .dec _, .encIngestBuffer _ => none
  | .dec _, .encIngestString _ => none

/-- The words of a block of lines for one port (R67, R72), if every line belongs there. -/
def assemble (p : Port) : List AsmLine → Option (List CmdWord)
  | [] => some []
  | l :: ls =>
    match l.commands? p, assemble p ls with
    | some is, some ws => some (is.map (fun i => (encode i).2) ++ ws)
    | _, _ => none

end Sys2Proof.Machine
end

