-- ==== Sys2Proof/Machine/Stream.lean ====
section
/-! DEFINITION. Machine/Stream.lean: the spec's own functions on whole streams, written from its closed forms and not from
the commands: the grammar of encoded streams (R63, R64), `encode_ESC` (R83) and `decode_ESC` (R102). No step uses them;
claims compare the commands with them. -/

namespace Sys2Proof.Machine

/-- An item of an encoded stream (R64). -/
inductive Item where
  | lit (x : Byte) (n : Nat)
  | frame (x : Byte) (n : Nat)
  deriving DecidableEq, Repr

/-- The items an encoder with escape byte `esc` can emit (R63, R64): a literal run of 1 to 3 bytes other than ESC, or a
frame of 1 to 255 bytes that is longer than 3 or a run of ESC. -/
def Item.legal (esc : Byte) : Item → Bool
  | .lit x n => x != esc && decide (1 ≤ n) && decide (n ≤ 3)
  | .frame x n => decide (1 ≤ n) && decide (n ≤ 255) && (decide (4 ≤ n) || x == esc)

/-- The bytes of an item on the wire (R63): the byte `n` times, or ESC, byte, count. -/
def Item.wire (esc : Byte) : Item → List Byte
  | .lit x n => List.replicate n x
  | .frame x n => [esc, x, BitVec.ofNat 8 n]

/-- The plain bytes an item stands for (R63, R66). -/
def Item.plain : Item → List Byte
  | .lit x n => List.replicate n x
  | .frame x n => List.replicate n x

/-- The maximal runs of a byte sequence, in order (R19, R83). -/
def runsOf : List Byte → List (Byte × Nat)
  | [] => []
  | b :: bs =>
    match runsOf bs with
    | [] => [(b, 1)]
    | (x, n) :: rs => if b = x then (x, n + 1) :: rs else (b, 1) :: (x, n) :: rs

/-- `seg(x, m)` of R83, for 1 ≤ m ≤ 255. -/
def seg (esc x : Byte) (m : Nat) : List Byte :=
  if 3 < m ∨ x = esc then [esc, x, BitVec.ofNat 8 m] else List.replicate m x

/-- `encRun(x, n)` of R83: `n div 255` segments of 255 and one of the rest, if any. -/
def encRun (esc x : Byte) (n : Nat) : List Byte :=
  (List.replicate (n / 255) (seg esc x 255)).flatten ++ (if 0 < n % 255 then seg esc x (n % 255) else [])

/-- `encode_ESC(S)` in the closed form of R83. -/
def encodeStream (esc : Byte) (S : List Byte) : List Byte :=
  (runsOf S).flatMap fun r => encRun esc r.1 r.2

/-- `dec(phase, T)` of R102; `x` is the captured byte, which only phase SawEscapeAndByte has. -/
def decodeFrom (esc : Byte) : Phase → Byte → List Byte → List Byte
  | _, _, [] => []
  | .normal, x, b :: T => if b = esc then decodeFrom esc .sawEscape x T else b :: decodeFrom esc .normal x T
  | .sawEscape, _, b :: T => decodeFrom esc .sawEscapeAndByte b T
  | .sawEscapeAndByte, x, n :: T => List.replicate n.toNat x ++ decodeFrom esc .normal x T

/-- The phase the recursion of R102 ends in. -/
def finalPhase (esc : Byte) : Phase → List Byte → Phase
  | ph, [] => ph
  | .normal, b :: T => if b = esc then finalPhase esc .sawEscape T else finalPhase esc .normal T
  | .sawEscape, _ :: T => finalPhase esc .sawEscapeAndByte T
  | .sawEscapeAndByte, _ :: T => finalPhase esc .normal T

/-- `decode_ESC(T) := dec(Normal, T)` (R102). The captured byte of phase Normal is never used. -/
def decodeStream (esc : Byte) (T : List Byte) : List Byte := decodeFrom esc .normal 0x00#8 T

/-- The commands of R83 on ENC instance `k`: one ENC_INGEST per byte of `S`, then one ENC_FLUSH. -/
def encodeCommands (k : Nat) (S : List Byte) : List Instr := S.map (.encIngest k) ++ [.encFlush k]

/-- The plain bytes a list of commands carries into an encoder (R104, R105). -/
def ingested : List Instr → List Byte
  | [] => []
  | .encIngest _ b :: is => b :: ingested is
  | .encFlush _ :: is => ingested is
  | .decIngest _ _ :: is => ingested is

end Sys2Proof.Machine
end

