-- ==== Sys2Proof/WellFormed.lean ====
section
/-! DEFINITION. WellFormed.lean: when a command makes sense on a platform. Every data byte is legal (R12, R76, R90), so
the only check is that the instance exists: the platform has `nEnc` ENC and `nDec` DEC instances (R13). -/

namespace Sys2Proof

/-- The OPEN parameters `n_enc` and `n_dec` of a platform (R13). -/
structure Platform where
  nEnc : Nat
  nDec : Nat
  deriving DecidableEq, Repr

/-- The platform has the instance that the port belongs to. -/
def Port.wf (P : Platform) : Port → Bool
  | .enc k => decide (k < P.nEnc)
  | .dec k => decide (k < P.nDec)

/-- A command is well formed on a platform when its instance exists there. -/
def Instr.wf (P : Platform) (i : Instr) : Bool := i.port.wf P

end Sys2Proof
end

