-- ==== Sys2Proof/Safety.lean ====
section
/-! DEFINITION. Safety.lean: what counts as a good state and a good run, in the terms claims use. -/

namespace Sys2Proof.Machine

/-- A state of an output port that the busy rule allows (R141, R148): the waiting bytes are the last of the stream and
at most `bound` of them. -/
abbrev SinkPort.Inv (bound : Nat) (q : SinkPort) : Prop := q.undelivered ≤ q.out.length ∧ q.undelivered ≤ bound

/-- R26: an open run's byte is held. -/
abbrev EncInst.Held (e : EncInst) : Prop := e.runLength ≠ 0#8 → e.pending.written = true

/-- R29: in phase SawEscapeAndByte the captured byte is held. -/
abbrev DecInst.Held (d : DecInst) : Prop := d.phase = .sawEscapeAndByte → d.pending.written = true

/-- The invariant of an ENC instance between two commands: `runLength` is 0 to 254 (R25), an open run's byte is held (R26),
and at most 3 output bytes wait (R148). -/
abbrev EncInst.Inv (e : EncInst) : Prop := e.runLength.toNat ≤ 254 ∧ e.Held ∧ e.sink.Inv 3

/-- The invariant of a DEC instance between two commands: the captured byte is held where it is meaningful (R29), and at
most 255 output bytes wait (R148). -/
abbrev DecInst.Inv (d : DecInst) : Prop := d.Held ∧ d.sink.Inv 255

/-- The invariant of the machine: every instance meets its own. -/
abbrev State.Inv (s : State) : Prop := (∀ e ∈ s.encs, e.Inv) ∧ (∀ d ∈ s.decs, d.Inv)

/-- Every instance is idle: each output byte has been accepted (R128, R141). -/
abbrev State.AllDelivered (s : State) : Prop :=
  (∀ e ∈ s.encs, e.sink.undelivered = 0) ∧ (∀ d ∈ s.decs, d.sink.undelivered = 0)

/-- Every sink holds its ready line high (the fairness of R144). -/
abbrev State.AllReady (s : State) : Prop := (∀ e ∈ s.encs, e.sink.ready = true) ∧ (∀ d ∈ s.decs, d.sink.ready = true)

/-- The machine as a whole has nothing left to do: no input, and every output byte accepted. Then the run of every instance
has ended (R128, `State.RunEnded`). -/
abbrev State.AtEnd (s : State) : Prop := s.inputs = [] ∧ s.AllDelivered

/-- The registers of one instance: R39's EncState and DecState, a `pendingByte` without a value being `none`. -/
inductive Registers where
  | enc (pendingByte : Option Byte) (runLength : Byte)
  | dec (phase : Phase) (pendingByte : Option Byte)
  deriving DecidableEq, Repr

/-- The registers of the instance on a command port, if the platform has it. -/
def State.registersAt? (s : State) (p : Port) : Option Registers :=
  match p with
  | .enc k => s.encs[k]?.map fun e => .enc e.pending.read? e.runLength
  | .dec k => s.decs[k]?.map fun d => .dec d.phase d.pending.read?

/-- The parameter ESC of the instance on a command port. -/
def State.escAt? (s : State) (p : Port) : Option Byte :=
  match p with
  | .enc k => s.encs[k]?.map EncInst.esc
  | .dec k => s.decs[k]?.map DecInst.esc

/-- The output stream of the instance on a command port. -/
def State.outAt? (s : State) (p : Port) : Option (List Byte) := (s.sinkAt? p).map SinkPort.out

/-- The input is a command of the host of `p`. -/
def Input.isCommandAt (p : Port) : Input → Bool
  | .offer p' _ => p' == p
  | .reset _ _ => false
  | .resetDuringOutput _ _ => false
  | .transfer _ => false
  | .sinkReady _ _ => false

/-- The input is a reset of the instance on `p`, at whatever time. -/
def Input.isResetAt (p : Port) : Input → Bool
  | .offer _ _ => false
  | .reset p' _ => p' == p
  | .resetDuringOutput p' _ => p' == p
  | .transfer _ => false
  | .sinkReady _ _ => false

/-- The run of ONE instance has ended (R128): its host has issued the last command of its list, and every output byte has
been accepted by its sink. Inputs that are no commands of its host, and other instances, do not matter. -/
def State.RunEnded (s : State) (p : Port) : Prop :=
  (∀ x ∈ s.inputs, x.isCommandAt p = false) ∧ ∃ q, s.sinkAt? p = some q ∧ q.undelivered = 0

/-- The observation of a run of one instance: "the pair (the output stream `out`, the final state)" (R128). -/
structure Observation where
  out   : List Byte
  final : Registers
  deriving DecidableEq, Repr

/-- `o` is the observation of the run of the instance on `p`, which has ended in `s` (R128). -/
def State.Observed (s : State) (p : Port) (o : Observation) : Prop :=
  s.RunEnded p ∧ s.outAt? p = some o.out ∧ s.registersAt? p = some o.final

/-- The next step resets the instance on `p`. -/
abbrev State.ResetNext (s : State) (p : Port) : Prop :=
  ∃ c ∈ s.nextInput? [] s.inputs, c.1.isResetAt p = true

/-- The next step resets the instance on `p`, or takes the word offered on its port, which is then not busy (R141). -/
abbrev State.DrivenNext (s : State) (p : Port) : Prop :=
  ∃ c ∈ s.nextInput? [] s.inputs, c.1.isResetAt p = true ∨ c.1.isCommandAt p = true

/-- The state in which the host of the instance on `p` does nothing; what sinks and other hosts do is kept. -/
def State.withoutHost (p : Port) (s : State) : State :=
  s.setInputs (s.inputs.filter fun x => x.hostPort? != some p)

/-- The platform of a state (R13). -/
def State.platform (s : State) : Platform := { nEnc := s.encs.length, nDec := s.decs.length }

/-- An ENC instance with the value of a meaningless `pendingByte` wiped out (U1): it is meaningful only while a run is open
(R22). -/
def EncInst.masked (e : EncInst) : EncInst := if e.runLength = 0#8 then { e with pending := .noValue } else e

/-- A DEC instance with the value of a meaningless `pendingByte` wiped out (U2): it is meaningful only in phase
SawEscapeAndByte (R29). -/
def DecInst.masked (d : DecInst) : DecInst :=
  if d.phase = .sawEscapeAndByte then d else { d with pending := .noValue }

/-- A state with every meaningless `pendingByte` wiped out (U1, U2). -/
def State.masked (s : State) : State :=
  { s with encs := s.encs.map EncInst.masked, decs := s.decs.map DecInst.masked }

/-- An ENC instance with these registers and with `bs` emitted: the columns "output" and "after" of a table such as R78. -/
def EncInst.after (e : EncInst) (p : PendingReg) (n : Byte) (bs : List Byte) : EncInst :=
  { esc := e.esc, pending := p, runLength := n,
    sink := { out := e.sink.out ++ bs, undelivered := e.sink.undelivered + bs.length, ready := e.sink.ready } }

/-- A DEC instance with these registers and with `bs` emitted: the columns "action" and "next phase" of R91's table. -/
def DecInst.after (d : DecInst) (ph : Phase) (p : PendingReg) (bs : List Byte) : DecInst :=
  { esc := d.esc, phase := ph, pending := p,
    sink := { out := d.sink.out ++ bs, undelivered := d.sink.undelivered + bs.length, ready := d.sink.ready } }

/-- Go on from an outcome that has a next state. -/
def andThen (o : Host.Outcome State Fault Refusal) (f : State → Host.Outcome State Fault Refusal) :
    Host.Outcome State Fault Refusal :=
  match o with
  | .next s => f s
  | .fault r => .fault r
  | .refused r => .refused r

/-- `n` steps of the machine, stopping at the first fault or refusal: a refusal or a fault is never cleared (R112, R113).
That it stops for the whole platform is the model's choice (DESIGN CHOICE, log entry 15, safe). It is the host's `Core.run` on this machine. -/
def runSteps (n : Nat) (s : State) : Host.Outcome State Fault Refusal :=
  match n with
  | 0 => .next s
  | n + 1 => andThen (step s) (runSteps n)

/-- Change the state in an outcome. -/
def mapNext (f : State → State) (o : Host.Outcome State Fault Refusal) : Host.Outcome State Fault Refusal :=
  match o with
  | .next s => .next (f s)
  | .fault r => .fault r
  | .refused r => .refused r

end Sys2Proof.Machine
end

