-- ==== Sys2Proof/Certificates/Slice0/Obligations.lean ====
section
/-! DEFINITION. Certificates/Slice0/Obligations.lean: the statements for the provers. Each docstring names the rules of
spec/ a statement formalises. A statement is listed as 'stated' in OBLIGATIONS.json only where its Lean says the whole of the
rules it cites and spec/ does not mark them as its own derivation or decision; the others are 'derived'. -/

open Sys2Proof Sys2Proof.Machine

/-! ### Words -/

/-- R55, R57, R58: no bit of a command is lost in its word, a word has one reading on a port, and no two commands share a
port and a word. -/
def Obligations.EncodeDecodeAgree : Prop :=
  (∀ i : Instr, decode (encode i).1 (encode i).2 = .command i) ∧
  (∀ (p : Port) (w : CmdWord) (i : Instr), decode p w = .command i → encode i = (p, w)) ∧
  (∀ i j : Instr, encode i = encode j → i = j)

/-- R57 and R58: the opcode maps of the two kinds of port, by match and mask. -/
def Obligations.DecodeFollowsOpcodeMaps : Prop :=
  ∀ (k : Nat) (w : CmdWord),
    decode (.enc k) w =
      (if w &&& 0x300#10 = 0x000#10 then .command (.encIngest k (w.setWidth 8))
       else if w = 0x100#10 then .command (.encFlush k) else .reserved (.enc k) w) ∧
    decode (.dec k) w =
      (if w &&& 0x300#10 = 0x000#10 then .command (.decIngest k (w.setWidth 8)) else .reserved (.dec k) w)

/-- R71: the example words, on every port of their kind. -/
def Obligations.ExampleWordsDecode : Prop :=
  ∀ k : Nat,
    decode (.enc k) 0x041#10 = .command (.encIngest k 0x41#8) ∧
    decode (.enc k) 0x0FA#10 = .command (.encIngest k 0xFA#8) ∧
    decode (.enc k) 0x100#10 = .command (.encFlush k) ∧
    decode (.dec k) 0x004#10 = .command (.decIngest k 0x04#8) ∧
    decode (.enc k) 0x101#10 = .reserved (.enc k) 0x101#10 ∧
    decode (.dec k) 0x100#10 = .reserved (.dec k) 0x100#10

/-- R61: how many of the 1024 words are reserved on each kind of port. -/
def Obligations.ReservedWordCounts : Prop :=
  ∀ k : Nat,
    ((List.range 1024).filter fun n => (decode (.enc k) (BitVec.ofNat 10 n)).command? = none).length = 767 ∧
    ((List.range 1024).filter fun n => (decode (.dec k) (BitVec.ofNat 10 n)).command? = none).length = 768

/-! ### The step -/

/-- R52, R59, R141: when a word offered on the port of an idle instance is a command, the step takes the offer off the
host's list and is that command's `exec`. -/
def Obligations.StepRunsDecodedCommand : Prop :=
  ∀ (s : State) (p : Port) (w : CmdWord) (rest : List Input) (q : SinkPort) (i : Instr),
    s.inputs = .offer p w :: rest → s.sinkAt? p = some q → q.undelivered = 0 → decode p w = .command i →
    step s = exec i { s with inputs := rest }

/-- R61, R112: a reserved word at an idle instance is refused with its port and word, and no later step of the run clears
that. -/
def Obligations.ReservedWordIsRefused : Prop :=
  ∀ (s : State) (p : Port) (w : CmdWord) (rest : List Input) (q : SinkPort) (n : Nat),
    s.inputs = .offer p w :: rest → s.sinkAt? p = some q → q.undelivered = 0 →
    (match p with
      | .enc _ => w &&& 0x300#10 ≠ 0x000#10 ∧ w ≠ 0x100#10
      | .dec _ => w &&& 0x300#10 ≠ 0x000#10) →
    runSteps (n + 1) s = .refused (Refusal.reservedCommand p w)

/-- R115, R141: a busy instance does not accept the word offered on its port. Whatever input a step takes, the word stays the
oldest input and the instance keeps its registers, its ESC and its stream; and where nothing else is to happen there is a
next state, in which a ready sink has taken one waiting byte (that it moves in this step is the model's choice, log entry
6). -/
def Obligations.BusyPortHoldsOffer : Prop :=
  ∀ (s : State) (p : Port) (w : CmdWord) (rest : List Input) (q : SinkPort),
    s.inputs = .offer p w :: rest → s.sinkAt? p = some q → q.undelivered ≠ 0 →
    (∀ t : State, step s = .next t →
      (∃ rest' : List Input, t.inputs = .offer p w :: rest') ∧
      t.registersAt? p = s.registersAt? p ∧ t.escAt? p = s.escAt? p ∧ t.outAt? p = s.outAt? p) ∧
    (rest = [] → ∃ t : State, step s = .next t ∧ t.inputs = s.inputs ∧
      t.sinkAt? p = some (if q.ready = true then { q with undelivered := q.undelivered - 1 } else q))

/-- R141, R144: a word offered at a busy instance whose sink is ready and stays so is accepted next after at most as many
steps as there are later inputs and waiting bytes, if the run goes on so long; with no later input, after exactly as many
steps as bytes wait, and these steps change no register and no stream of any instance (when the sink moves is the model's
choice, log entry 6). -/
def Obligations.WaitEndsWhenOutputDelivered : Prop :=
  ∀ (s : State) (p : Port) (w : CmdWord) (rest : List Input) (q : SinkPort),
    s.inputs = .offer p w :: rest → s.sinkAt? p = some q → q.ready = true →
    (∀ t : State, (.sinkReady p false) ∉ rest → runSteps (rest.length + q.undelivered) s = .next t →
      ∃ (m : Nat) (u : State) (rest' : List Input) (q' : SinkPort),
        m ≤ rest.length + q.undelivered ∧ runSteps m s = .next u ∧ u.inputs = .offer p w :: rest' ∧
        u.sinkAt? p = some q' ∧ q'.undelivered = 0 ∧ q'.out = q.out ∧ u.registersAt? p = s.registersAt? p) ∧
    (rest = [] → ∃ u : State, runSteps q.undelivered s = .next u ∧ u.inputs = s.inputs ∧
      u.sinkAt? p = some { q with undelivered := 0 } ∧
      ∀ p' : Port, u.registersAt? p' = s.registersAt? p' ∧ u.escAt? p' = s.escAt? p' ∧ u.outAt? p' = s.outAt? p')

/-- R144: a sink that is not ready and never becomes so keeps a busy instance busy for ever: however many steps the rest of
the platform takes, the word offered on its port is the oldest input still and is not accepted, and the instance with all
its output port is as it was. -/
def Obligations.StalledSinkHangs : Prop :=
  ∀ (s t : State) (p : Port) (w : CmdWord) (rest : List Input) (q : SinkPort) (n : Nat),
    s.inputs = .offer p w :: rest → s.sinkAt? p = some q → q.undelivered ≠ 0 → q.ready = false →
    (.sinkReady p true) ∉ rest → runSteps n s = .next t →
    (∃ rest' : List Input, t.inputs = .offer p w :: rest') ∧ t.sinkAt? p = some q ∧
      t.registersAt? p = s.registersAt? p ∧ t.escAt? p = s.escAt? p

/-- R115, R50, R144: a word that waits at a busy instance holds up no other instance. The step is the step of the machine in
which the host of that instance does nothing, but for that host's own inputs, which stay in the list; and so is every run,
while the sink that is to take its bytes does not become ready. -/
def Obligations.HangIsLocal : Prop :=
  (∀ (s : State) (p : Port) (w : CmdWord) (rest : List Input) (q : SinkPort),
    s.inputs = .offer p w :: rest → s.sinkAt? p = some q → q.undelivered ≠ 0 →
    mapNext (State.withoutHost p) (step s) = step (s.withoutHost p)) ∧
  (∀ (s : State) (p : Port) (w : CmdWord) (rest : List Input) (q : SinkPort) (n : Nat),
    s.inputs = .offer p w :: rest → s.sinkAt? p = some q → q.undelivered ≠ 0 → q.ready = false →
    (.sinkReady p true) ∉ rest →
    mapNext (State.withoutHost p) (runSteps n s) = runSteps n (s.withoutHost p))

/-- R115, R50: "Events at different instances are independent and unordered": two inputs at different instances, neither of
which waits, lead to the same state in either order. -/
def Obligations.EventsOfInstancesCommute : Prop :=
  ∀ (s t : State) (x y : Input) (rest : List Input),
    x.port ≠ y.port → s.waits [] x = false → s.waits [] y = false →
    runSteps 2 (s.setInputs (x :: y :: rest)) = .next t → runSteps 2 (s.setInputs (y :: x :: rest)) = .next t

/-- R128, R144: with nothing offered and every sink ready, at most 255 steps deliver every waiting byte, and
no stream changes: the run of every instance has ended, and its observation has the stream it had (one output cycle of every
sink per step is the model's choice, log entry 6). -/
def Obligations.EveryByteIsDelivered : Prop :=
  ∀ s : State, s.Inv → s.inputs = [] → s.AllReady →
    ∃ t : State, runSteps 255 s = .next t ∧ t.AtEnd ∧
      t.encs.map (fun e => e.sink.out) = s.encs.map (fun e => e.sink.out) ∧
      t.decs.map (fun d => d.sink.out) = s.decs.map (fun d => d.sink.out) ∧
      ∀ (p : Port) (q : SinkPort), s.sinkAt? p = some q → ∃ o : Observation, t.Observed p o ∧ o.out = q.out

/-- R128: the end of a run of one instance is final: once its host has no command left and its last byte is accepted, no
step changes its observation, whatever happens at its sink and at the other instances; only a reset of it would. -/
def Obligations.EndedRunKeepsObservation : Prop :=
  ∀ (s t : State) (p : Port) (o : Observation),
    s.Observed p o → ¬ s.ResetNext p → step s = .next t → t.Observed p o

/-- R125: with nothing offered and nothing waiting, the machine holds its state. -/
def Obligations.IdleMachineHoldsState : Prop :=
  ∀ s : State, s.inputs = [] → s.AllDelivered → step s = .next s

/-- R82, R98: a step that neither resets an instance nor accepts the word offered on its port leaves its registers, its ESC
and its output stream as they were, whatever else it does: an output cycle or a ready line at any sink, a waiting offer, an
event at another port. So with nothing offered no number of steps flushes an open run, ends a partial frame or emits a
byte. -/
def Obligations.NothingEmittedWithoutCommand : Prop :=
  (∀ (s t : State) (p : Port), step s = .next t → ¬ s.DrivenNext p →
    t.registersAt? p = s.registersAt? p ∧ t.escAt? p = s.escAt? p ∧ t.outAt? p = s.outAt? p) ∧
  (∀ (s : State) (n : Nat), s.inputs = [] →
    ∃ t : State, runSteps n s = .next t ∧ t.inputs = [] ∧
      t.encs.map (fun e => (e.esc, e.pending, e.runLength, e.sink.out)) =
        s.encs.map (fun e => (e.esc, e.pending, e.runLength, e.sink.out)) ∧
      t.decs.map (fun d => (d.esc, d.phase, d.pending, d.sink.out)) =
        s.decs.map (fun d => (d.esc, d.phase, d.pending, d.sink.out)))

/-- R45: an output cycle of a busy port with a ready sink hands over exactly the oldest waiting byte, and nothing else
changes but that the input is used up; at a port that is idle or whose sink is not ready the input is used up and nothing
changes. -/
def Obligations.TransferMovesOldestByte : Prop :=
  ∀ (s : State) (p : Port) (rest : List Input) (q : SinkPort),
    s.inputs = .transfer p :: rest → s.sinkAt? p = some q → q.undelivered ≤ q.out.length →
    (q.undelivered ≠ 0 → q.ready = true →
      step s = .next (match p with
        | .enc k => { s with encs := s.encs.modify k (fun e => { e with sink := { q with undelivered := q.undelivered - 1 } }), inputs := rest }
        | .dec k => { s with decs := s.decs.modify k (fun d => { d with sink := { q with undelivered := q.undelivered - 1 } }), inputs := rest }) ∧
      ∃ b : Byte, q.out[q.delivered.length]? = some b ∧
        SinkPort.delivered { q with undelivered := q.undelivered - 1 } = q.delivered ++ [b]) ∧
    (q.undelivered = 0 ∨ q.ready = false → step s = .next { s with inputs := rest })

/-- R45: the sink's ready line changes nothing but itself. -/
def Obligations.ReadyLineChangesAlone : Prop :=
  ∀ (s : State) (p : Port) (r : Bool) (rest : List Input) (q : SinkPort),
    s.inputs = .sinkReady p r :: rest → s.sinkAt? p = some q →
    step s = .next (match p with
      | .enc k => { s with encs := s.encs.modify k (fun e => { e with sink := { e.sink with ready := r } }), inputs := rest }
      | .dec k => { s with decs := s.decs.modify k (fun d => { d with sink := { d.sink with ready := r } }), inputs := rest })

/-- The model's choice (log entry 3): a command for an instance that the platform does not have is refused by name. -/
def Obligations.MissingPortIsRefused : Prop :=
  ∀ (s : State) (i : Instr), i.wf s.platform = false → exec i s = .refused (Refusal.noSuchPort i.port)

/-! ### ENC_INGEST and ENC_FLUSH -/

/-- R78: the transition table of ENC_INGEST, row by row; `p` is `e.pending.byte` and `n` is `e.runLength`. -/
def Obligations.EncIngestTransitions : Prop :=
  ∀ (s : State) (k : Nat) (e : EncInst) (b : Byte),
    s.encs[k]? = some e → e.Held → e.runLength.toNat ≤ 254 →
    exec (.encIngest k b) s = .next { s with encs := s.encs.set k (
      if e.runLength.toNat = 0 then e.after ⟨b, true⟩ 1#8 []
       else if b = e.pending.byte then
         if e.runLength.toNat ≤ 253 then e.after e.pending (e.runLength + 1#8) []
         else e.after e.pending 0#8 [e.esc, e.pending.byte, 0xFF#8]
       else if e.runLength.toNat ≤ 3 then
         if e.pending.byte ≠ e.esc then e.after ⟨b, true⟩ 1#8 (List.replicate e.runLength.toNat e.pending.byte)
         else e.after ⟨b, true⟩ 1#8 [e.esc, e.esc, e.runLength]
       else e.after ⟨b, true⟩ 1#8 [e.esc, e.pending.byte, e.runLength]) }

/-- R75: the output table of FlushCore, which is all that ENC_FLUSH runs (R80); `p` is `e.pending.byte` and `n` is
`e.runLength`. -/
def Obligations.EncFlushOutputTable : Prop :=
  ∀ (s : State) (k : Nat) (e : EncInst), s.encs[k]? = some e → e.Held →
    exec (.encFlush k) s = .next { s with encs := s.encs.set k (e.after e.pending 0#8 (
      if e.runLength.toNat = 0 then []
       else if e.runLength.toNat ≤ 3 then
         if e.pending.byte = e.esc then [e.esc, e.esc, e.runLength]
         else List.replicate e.runLength.toNat e.pending.byte
       else if e.pending.byte = e.esc then [e.esc, e.esc, e.runLength]
       else [e.esc, e.pending.byte, e.runLength])) }

/-- R81: after an ENC_FLUSH a second one gives the same state, so it emits nothing. -/
def Obligations.SecondFlushDoesNothing : Prop :=
  ∀ (s t : State) (k : Nat), exec (.encFlush k) s = .next t →
    (∃ e : EncInst, t.encs[k]? = some e ∧ e.runLength = 0#8) ∧ exec (.encFlush k) t = .next t

/-- R77: how many bytes one ENC_INGEST emits. -/
def Obligations.EncIngestOutputLength : Prop :=
  ∀ (s : State) (k : Nat) (e : EncInst) (b : Byte),
    s.encs[k]? = some e → e.Held → e.runLength.toNat ≤ 254 →
    ∃ (t : State) (e' : EncInst) (bs : List Byte),
      exec (.encIngest k b) s = .next t ∧ t.encs[k]? = some e' ∧ e'.sink.out = e.sink.out ++ bs ∧ bs.length ≤ 3 ∧
      (e.runLength = 0#8 → bs.length = 0) ∧
      (e.runLength ≠ 0#8 → b = e.pending.byte → bs.length = if e.runLength.toNat = 254 then 3 else 0) ∧
      (e.runLength ≠ 0#8 → b ≠ e.pending.byte → 1 ≤ bs.length) ∧
      (bs.length = 1 → e.runLength.toNat = 1 ∧ b ≠ e.pending.byte ∧ e.pending.byte ≠ e.esc) ∧
      (bs.length = 2 → e.runLength.toNat = 2 ∧ b ≠ e.pending.byte ∧ e.pending.byte ≠ e.esc)

/-- R74: from no open run, up to 254 equal bytes emit nothing and are held, and the 255th byte emits the frame at once. -/
def Obligations.RunClosesAt255 : Prop :=
  ∀ (s : State) (k : Nat) (e : EncInst) (x : Byte) (n : Nat),
    s.encs[k]? = some e → e.runLength = 0#8 → 1 ≤ n → n ≤ 255 →
    execAll (List.replicate n (.encIngest k x)) s = .next { s with encs := s.encs.set k (
      if n ≤ 254 then e.after ⟨x, true⟩ (BitVec.ofNat 8 n) [] else e.after ⟨x, true⟩ 0#8 [e.esc, x, 0xFF#8]) }

/-- R85, R87: a run of 1 to 255 bytes: a run of at most 3 non-escape bytes gives that many literal bytes, any longer one of
a non-escape byte exactly the 3 bytes of its frame; with R86, a run of the escape byte is always framed. -/
def Obligations.RunEncodesAsSegment : Prop :=
  ∀ (s : State) (k : Nat) (e : EncInst) (x : Byte) (n : Nat),
    s.encs[k]? = some e → e.runLength = 0#8 → 1 ≤ n → n ≤ 255 →
    ∃ (t : State) (e' : EncInst),
      execAll (encodeCommands k (List.replicate n x)) s = .next t ∧ t.encs[k]? = some e' ∧ e'.runLength = 0#8 ∧
      (x ≠ e.esc → n ≤ 3 → e'.sink.out = e.sink.out ++ List.replicate n x) ∧
      (x ≠ e.esc → 3 < n → e'.sink.out = e.sink.out ++ [e.esc, x, BitVec.ofNat 8 n]) ∧
      (x = e.esc → e'.sink.out = e.sink.out ++ [e.esc, e.esc, BitVec.ofNat 8 n])

/-- R88: a run of any length `n` gives `n div 255` frames of count 255, then one segment for the remaining `n mod 255`
bytes if there are any: a frame if the remainder is more than 3 or the byte is ESC, and literals otherwise. -/
def Obligations.LongRunSplitsAt255 : Prop :=
  ∀ (s : State) (k : Nat) (e : EncInst) (x : Byte) (n : Nat),
    s.encs[k]? = some e → e.runLength = 0#8 →
    ∃ (t : State) (e' : EncInst),
      execAll (encodeCommands k (List.replicate n x)) s = .next t ∧ t.encs[k]? = some e' ∧
      e'.sink.out = e.sink.out ++ (List.replicate (n / 255) [e.esc, x, 255#8]).flatten ++
        (if n % 255 = 0 then []
         else if 3 < n % 255 ∨ x = e.esc then [e.esc, x, BitVec.ofNat 8 (n % 255)]
         else List.replicate (n % 255) x)

/-- R63, R64, R146: each command of an encoder emits nothing or exactly one whole item of the wire format, and that item
stands for the run that was open, with the byte being ingested where it is the 255th. -/
def Obligations.EncCommandEmitsWholeItem : Prop :=
  ∀ (s t : State) (k : Nat) (e e' : EncInst) (i : Instr),
    (i = .encFlush k ∨ ∃ b : Byte, i = .encIngest k b) →
    s.encs[k]? = some e → e.Inv → exec i s = .next t → t.encs[k]? = some e' →
    e'.sink.out = e.sink.out ∨
    ∃ it : Item, it.legal e.esc = true ∧ e'.sink.out = e.sink.out ++ it.wire e.esc ∧
      (it.plain = List.replicate e.runLength.toNat e.pending.byte ∨
       (e.runLength.toNat = 254 ∧ it.plain = List.replicate 255 e.pending.byte))

/-- R83: from no open run, one ENC_INGEST per byte of S and then ENC_FLUSH emit `encode_ESC(S)`, the closed form. -/
def Obligations.EncoderMeetsClosedForm : Prop :=
  ∀ (s : State) (k : Nat) (e : EncInst) (S : List Byte), s.encs[k]? = some e → e.runLength = 0#8 →
    ∃ (t : State) (e' : EncInst),
      execAll (encodeCommands k S) s = .next t ∧ t.encs[k]? = some e' ∧
      e'.sink.out = e.sink.out ++ encodeStream e.esc S ∧ e'.runLength = 0#8

/-- R89: the encoded form of S is at most three times as long as S, and one escape byte reaches the bound. -/
def Obligations.EncodedSizeBound : Prop :=
  ∀ (s : State) (k : Nat) (e : EncInst) (S : List Byte), s.encs[k]? = some e → e.runLength = 0#8 →
    ∃ (t : State) (e' : EncInst),
      execAll (encodeCommands k S) s = .next t ∧ t.encs[k]? = some e' ∧
      e'.sink.out.length ≤ e.sink.out.length + 3 * S.length ∧
      (S = [e.esc] → e'.sink.out.length = e.sink.out.length + 3)

/-! ### DEC_INGEST -/

/-- R91: the decoder's state machine table, row by row; the captured byte is needed only for a count other than 0 (R93). -/
def Obligations.DecIngestTransitions : Prop :=
  ∀ (s : State) (j : Nat) (d : DecInst) (b : Byte), s.decs[j]? = some d →
    (d.phase = .sawEscapeAndByte → b ≠ 0#8 → d.pending.written = true) →
    exec (.decIngest j b) s = .next { s with decs := s.decs.set j (
      match d.phase with
        | .normal => if b = d.esc then d.after .sawEscape d.pending [] else d.after .normal d.pending [b]
        | .sawEscape => d.after .sawEscapeAndByte ⟨b, true⟩ []
        | .sawEscapeAndByte => d.after .normal d.pending (List.replicate b.toNat d.pending.byte)) }

/-- R98: a decoder that has received one or two bytes of a frame is suspended in SawEscape or SawEscapeAndByte and has emitted
nothing for it; and from ANY state with the decoder in a phase other than Normal, any number of steps of which none accepts
a word on its port or resets it keeps its phase, its captured byte and its stream, whatever else these steps do. -/
def Obligations.TruncatedFrameSuspends : Prop :=
  (∀ (s : State) (j : Nat) (d : DecInst) (x : Byte), s.decs[j]? = some d → d.phase = .normal →
    (∃ (t : State) (d' : DecInst), execAll (decIngestBuffer j [d.esc]) s = .next t ∧ t.decs[j]? = some d' ∧
      d'.phase = .sawEscape ∧ d'.sink = d.sink) ∧
    (∃ (t : State) (d' : DecInst), execAll (decIngestBuffer j [d.esc, x]) s = .next t ∧ t.decs[j]? = some d' ∧
      d'.phase = .sawEscapeAndByte ∧ d'.pending.read? = some x ∧ d'.sink = d.sink)) ∧
  (∀ (s t : State) (j : Nat) (d : DecInst) (n : Nat), s.decs[j]? = some d → d.phase ≠ .normal →
    (∀ (m : Nat) (u : State), m < n → runSteps m s = .next u → ¬ u.DrivenNext (.dec j)) →
    runSteps n s = .next t →
    ∃ d' : DecInst, t.decs[j]? = some d' ∧ d'.phase = d.phase ∧ d'.pending = d.pending ∧ d'.sink.out = d.sink.out)

/-- R66, R94, R95: from phase Normal, a frame `[ESC, x, n]` emits `x` exactly `n` times and returns to Normal, whatever `x`
and `n` are: the escape byte as run byte or count, a count of 0, a count the encoder would not frame. -/
def Obligations.FrameDecodesToRun : Prop :=
  ∀ (s : State) (j : Nat) (d : DecInst) (x n : Byte), s.decs[j]? = some d → d.phase = .normal →
    execAll (decIngestBuffer j [d.esc, x, n]) s =
      .next { s with decs := s.decs.set j (d.after .normal ⟨x, true⟩ (List.replicate n.toNat x)) }

/-- R92: how many bytes one DEC_INGEST emits. -/
def Obligations.DecIngestOutputLength : Prop :=
  ∀ (s : State) (j : Nat) (d : DecInst) (b : Byte), s.decs[j]? = some d →
    (d.phase = .sawEscapeAndByte → b ≠ 0#8 → d.pending.written = true) →
    ∃ (t : State) (d' : DecInst) (bs : List Byte),
      exec (.decIngest j b) s = .next t ∧ t.decs[j]? = some d' ∧ d'.sink.out = d.sink.out ++ bs ∧
      (d.phase = .normal → bs.length = if b = d.esc then 0 else 1) ∧
      (d.phase = .sawEscape → bs.length = 0) ∧
      (d.phase = .sawEscapeAndByte → bs.length = b.toNat)

/-- R102, R109: from any phase, one DEC_INGEST per byte of T emits what the recursion of R102 gives and ends in the phase it
ends in; the decoder's own ESC decides (R107), and T may start anywhere in a stream (R108). -/
def Obligations.DecoderMeetsRecursion : Prop :=
  ∀ (s : State) (j : Nat) (d : DecInst) (T : List Byte), s.decs[j]? = some d → d.Held →
    ∃ (t : State) (d' : DecInst),
      execAll (decIngestBuffer j T) s = .next t ∧ t.decs[j]? = some d' ∧
      d'.sink.out = d.sink.out ++ decodeFrom d.esc d.phase d.pending.byte T ∧ d'.phase = finalPhase d.esc d.phase T

/-- R103: items of an encoder-produced stream fed to a decoder in phase Normal give their plain bytes and leave it in phase
Normal; so does `encode_ESC(S)`. -/
def Obligations.DecoderRestsAtItemBoundaries : Prop :=
  (∀ (s : State) (j : Nat) (d : DecInst) (items : List Item),
    s.decs[j]? = some d → d.phase = .normal → (∀ it ∈ items, it.legal d.esc = true) →
    ∃ (t : State) (d' : DecInst),
      execAll (decIngestBuffer j (items.flatMap (Item.wire d.esc))) s = .next t ∧ t.decs[j]? = some d' ∧
      d'.phase = .normal ∧ d'.sink.out = d.sink.out ++ items.flatMap Item.plain) ∧
  (∀ (s : State) (j : Nat) (d : DecInst) (S : List Byte), s.decs[j]? = some d → d.phase = .normal →
    ∃ (t : State) (d' : DecInst),
      execAll (decIngestBuffer j (encodeStream d.esc S)) s = .next t ∧ t.decs[j]? = some d' ∧ d'.phase = .normal)

/-! ### An encoder and a decoder together -/

/-- R101: for every byte sequence S, what an encoder with no open run emits for S and a final flush, fed in order to a
decoder in phase Normal with the same ESC, gives exactly S; for every ESC. -/
def Obligations.RoundTrip : Prop :=
  ∀ (s : State) (k j : Nat) (e : EncInst) (d : DecInst) (S : List Byte),
    s.encs[k]? = some e → s.decs[j]? = some d → e.runLength = 0#8 → d.phase = .normal → d.esc = e.esc →
    ∃ (t u : State) (e' : EncInst) (d' : DecInst) (code : List Byte),
      execAll (encodeCommands k S) s = .next t ∧ t.encs[k]? = some e' ∧ e'.sink.out = e.sink.out ++ code ∧
      execAll (decIngestBuffer j code) t = .next u ∧ u.decs[j]? = some d' ∧ d'.sink.out = d.sink.out ++ S ∧
      d'.phase = .normal

/-- R104, R105: after ANY commands of an encoder (flushes at any points), what it has emitted so far decodes to a prefix of
what it was given; the rest is exactly its open run, and there is none if the last command was ENC_FLUSH. -/
def Obligations.StreamingPrefix : Prop :=
  ∀ (s : State) (k j : Nat) (e : EncInst) (d : DecInst) (cs : List Instr),
    s.encs[k]? = some e → s.decs[j]? = some d → e.runLength = 0#8 → d.phase = .normal → d.esc = e.esc →
    (∀ i ∈ cs, i.port = .enc k) →
    ∃ (t u : State) (e' : EncInst) (d' : DecInst) (code plain : List Byte),
      execAll cs s = .next t ∧ t.encs[k]? = some e' ∧ e'.sink.out = e.sink.out ++ code ∧
      execAll (decIngestBuffer j code) t = .next u ∧ u.decs[j]? = some d' ∧ d'.sink.out = d.sink.out ++ plain ∧
      d'.phase = .normal ∧ ingested cs = plain ++ List.replicate e'.runLength.toNat e'.pending.byte ∧
      (cs.getLast? = some (.encFlush k) → plain = ingested cs)

/-! ### Frames and independence -/

/-- R22, R31, R34, R37: what ENC_INGEST leaves unchanged: the host's list, every DEC instance, every other ENC instance; of
its own instance ESC, the ready line, every byte already in the stream, and `pendingByte` unless it starts a run with `b`. -/
def Obligations.EncIngestFrame : Prop :=
  ∀ (s t : State) (k : Nat) (b : Byte), exec (.encIngest k b) s = .next t →
    t.inputs = s.inputs ∧ t.decs = s.decs ∧ t.encs.length = s.encs.length ∧
    (∀ m, m ≠ k → t.encs[m]? = s.encs[m]?) ∧
    ∃ e e' : EncInst, s.encs[k]? = some e ∧ t.encs[k]? = some e' ∧ e'.esc = e.esc ∧
      e'.sink.ready = e.sink.ready ∧ e.sink.out <+: e'.sink.out ∧ e'.sink.delivered = e.sink.delivered ∧
      (e'.pending = e.pending ∨ (e'.pending = ⟨b, true⟩ ∧ e'.runLength = 1#8))

/-- R22, R31, R34, R37, R80: what ENC_FLUSH leaves unchanged: as for ENC_INGEST, and `pendingByte` always. -/
def Obligations.EncFlushFrame : Prop :=
  ∀ (s t : State) (k : Nat), exec (.encFlush k) s = .next t →
    t.inputs = s.inputs ∧ t.decs = s.decs ∧ t.encs.length = s.encs.length ∧
    (∀ m, m ≠ k → t.encs[m]? = s.encs[m]?) ∧
    ∃ e e' : EncInst, s.encs[k]? = some e ∧ t.encs[k]? = some e' ∧ e'.esc = e.esc ∧ e'.pending = e.pending ∧
      e'.sink.ready = e.sink.ready ∧ e.sink.out <+: e'.sink.out ∧ e'.sink.delivered = e.sink.delivered

/-- R28, R31, R34, R37: what DEC_INGEST leaves unchanged: the host's list, every ENC instance, every other DEC instance; of
its own instance ESC, the ready line, every byte already in the stream, and `pendingByte` outside phase SawEscape. -/
def Obligations.DecIngestFrame : Prop :=
  ∀ (s t : State) (j : Nat) (b : Byte), exec (.decIngest j b) s = .next t →
    t.inputs = s.inputs ∧ t.encs = s.encs ∧ t.decs.length = s.decs.length ∧
    (∀ m, m ≠ j → t.decs[m]? = s.decs[m]?) ∧
    ∃ d d' : DecInst, s.decs[j]? = some d ∧ t.decs[j]? = some d' ∧ d'.esc = d.esc ∧
      d'.sink.ready = d.sink.ready ∧ d.sink.out <+: d'.sink.out ∧ d'.sink.delivered = d.sink.delivered ∧
      (d.phase ≠ .sawEscape → d'.pending = d.pending)

/-- R37, R50: commands of two different instances have no order between them: either order gives the same state. -/
def Obligations.InstancesCommute : Prop :=
  ∀ (s t u : State) (i j : Instr), i.port ≠ j.port → exec i s = .next t → exec j t = .next u →
    ∃ t' : State, exec j s = .next t' ∧ exec i t' = .next u

/-- R49: what a list of commands does to an ENC instance is a function of that instance alone: in two states with the same
`k`-th ENC instance the same commands on its port give the same instance, stream included. -/
def Obligations.EncoderDependsOnItselfOnly : Prop :=
  ∀ (s s' t : State) (k : Nat) (cs : List Instr), s.encs[k]? = s'.encs[k]? → (∀ i ∈ cs, i.port = .enc k) →
    execAll cs s = .next t → ∃ t' : State, execAll cs s' = .next t' ∧ t'.encs[k]? = t.encs[k]?

/-- R49: the same for a DEC instance. -/
def Obligations.DecoderDependsOnItselfOnly : Prop :=
  ∀ (s s' t : State) (j : Nat) (cs : List Instr), s.decs[j]? = s'.decs[j]? → (∀ i ∈ cs, i.port = .dec j) →
    execAll cs s = .next t → ∃ t' : State, execAll cs s' = .next t' ∧ t'.decs[j]? = t.decs[j]?

/-- R22, R28, R35 (U1, U2): a meaningless `pendingByte` is never read: two states that differ only there step to outcomes
that differ only there, so no output depends on the value a reset or a flush leaves. -/
def Obligations.StaleByteIsUnobservable : Prop :=
  ∀ s s' : State, s.masked = s'.masked → mapNext State.masked (step s) = mapNext State.masked (step s')

/-! ### Invariants -/

/-- R25, R26, R29, R148: every step keeps the invariant: `runLength` 0 to 254 between commands, the byte of an open run and
of a partial frame held, at most 3 (ENC) or 255 (DEC) waiting output bytes. -/
def Obligations.StepKeepsInvariant : Prop :=
  ∀ s t : State, s.Inv → step s = .next t → t.Inv

/-- R35, R130: a platform of any instances with any escape bytes meets the invariant right after reset. -/
def Obligations.ResetMeetsInvariant : Prop :=
  (∀ encEscs decEscs : List Byte, (State.launch encEscs decEscs).Inv) ∧ State.reset.Inv

/-- R26, R29, R113: in a state that meets the invariant no step and no command reads a `pendingByte` without a value. -/
def Obligations.GoodStatesNeverFault : Prop :=
  ∀ s : State, s.Inv → (∀ r : Fault, step s ≠ .fault r) ∧ (∀ (i : Instr) (r : Fault), exec i s ≠ .fault r)

/-- R113: a command faults exactly where its rule reads a `pendingByte` that holds no value: an open run (ENC), or phase
SawEscapeAndByte and a count other than 0 (DEC: R90 repeats the read zero times for a count of 0), without the byte. -/
def Obligations.FaultExactlyOnMissingByte : Prop :=
  ∀ (s : State) (i : Instr) (r : Fault), exec i s = .fault r ↔
    (r = .readUnwrittenPending ∧
      match i with
      | .encIngest k _ => ∃ e : EncInst, s.encs[k]? = some e ∧ e.runLength ≠ 0#8 ∧ e.pending.written = false
      | .encFlush k => ∃ e : EncInst, s.encs[k]? = some e ∧ e.runLength ≠ 0#8 ∧ e.pending.written = false
      | .decIngest j b =>
        ∃ d : DecInst, s.decs[j]? = some d ∧ d.phase = .sawEscapeAndByte ∧ b ≠ 0#8 ∧ d.pending.written = false)

/-- R136: "No command or reset changes ESC"; nor does any other step, and the platform keeps its instances. -/
def Obligations.EscapeByteNeverChanges : Prop :=
  (∀ s t : State, step s = .next t →
    t.encs.map EncInst.esc = s.encs.map EncInst.esc ∧ t.decs.map DecInst.esc = s.decs.map DecInst.esc) ∧
  (∀ (s t : State) (i : Instr), exec i s = .next t →
    t.encs.map EncInst.esc = s.encs.map EncInst.esc ∧ t.decs.map DecInst.esc = s.decs.map DecInst.esc)

/-- R34, R130: no step takes back a byte that a sink has accepted; a reset of a busy instance is included as the model has it
(`Input.resetDuringOutput`, log entry 7). -/
def Obligations.DeliveredBytesStay : Prop :=
  ∀ (s t : State) (p : Port) (q : SinkPort), step s = .next t → s.sinkAt? p = some q →
    ∃ q' : SinkPort, t.sinkAt? p = some q' ∧ q.delivered <+: q'.delivered

/-- R92, R148: one ENC command emits at most 3 bytes and one DEC command at most 255. -/
def Obligations.WorkPerCommand : Prop :=
  ∀ (s t : State) (i : Instr) (q : SinkPort), exec i s = .next t → s.sinkAt? i.port = some q →
    ∃ (q' : SinkPort) (bs : List Byte), t.sinkAt? i.port = some q' ∧ q'.out = q.out ++ bs ∧
      q'.undelivered = q.undelivered + bs.length ∧ bs.length ≤ (match i.port with | .enc _ => 3 | .dec _ => 255)

/-! ### Reset -/

/-- R35: the values after reset, whatever escape bytes the instances were built with; the two `pendingByte` registers hold
no value, the stream is empty at launch and a later reset of an idle instance does not clear it. The default escape byte is
0xFA. -/
def Obligations.ResetValues : Prop :=
  (∀ (encEscs decEscs : List Byte) (k : Nat) (E : Byte), encEscs[k]? = some E →
    ∃ e : EncInst, (State.launch encEscs decEscs).encs[k]? = some e ∧ e.runLength = 0#8 ∧ e.pending.read? = none ∧
      e.esc = E ∧ e.sink.out = []) ∧
  (∀ (encEscs decEscs : List Byte) (j : Nat) (E : Byte), decEscs[j]? = some E →
    ∃ d : DecInst, (State.launch encEscs decEscs).decs[j]? = some d ∧ d.phase = .normal ∧ d.pending.read? = none ∧
      d.esc = E ∧ d.sink.out = []) ∧
  (∀ (s : State) (p : Port) (q : SinkPort), s.sinkAt? p = some q → q.undelivered = 0 →
    ∃ q' : SinkPort, (s.resetAt p).sinkAt? p = some q' ∧ q'.out = q.out) ∧
  Config.defaultEsc = 0xFA#8

/-- R130, R132, R133, R115: what the reset step does to its instance, which is idle (R132), and that it does nothing else:
the stream is kept, a command offered together with it is not accepted, every other instance is left alone. -/
def Obligations.ResetOfOneInstance : Prop :=
  (∀ (s : State) (k : Nat) (e : EncInst) (w : Option CmdWord) (rest : List Input),
    s.inputs = .reset (.enc k) w :: rest → s.encs[k]? = some e → e.sink.undelivered = 0 →
    ∃ e' : EncInst, step s = .next { s with encs := s.encs.set k e', inputs := rest } ∧
      e'.esc = e.esc ∧ e'.runLength = 0#8 ∧ e'.pending.read? = none ∧ e'.sink = e.sink) ∧
  (∀ (s : State) (j : Nat) (d : DecInst) (w : Option CmdWord) (rest : List Input),
    s.inputs = .reset (.dec j) w :: rest → s.decs[j]? = some d → d.sink.undelivered = 0 →
    ∃ d' : DecInst, step s = .next { s with decs := s.decs.set j d', inputs := rest } ∧
      d'.esc = d.esc ∧ d'.phase = .normal ∧ d'.pending.read? = none ∧ d'.sink = d.sink)

/-- R132, U6: the reset step "is defined only while the instance is idle": with an output byte waiting it is refused by name,
and no later step of the run clears that. -/
def Obligations.ResetWhileBusyIsRefused : Prop :=
  ∀ (s : State) (p : Port) (w : Option CmdWord) (rest : List Input) (q : SinkPort) (n : Nat),
    s.inputs = .reset p w :: rest → s.sinkAt? p = some q → q.undelivered ≠ 0 →
    runSteps (n + 1) s = .refused (Refusal.resetWhileBusy p)

/-- The model's choice (log entry 7, DEDUCED): R132 calls a reset during delivery "a hardware event of rule R130" and gives
the transaction-level model no step for it, and R34 lets only commands change `out`; this model has an input of its own for
that event and gives it what R130 and R115 say of the hardware: accepted bytes stay delivered, the waiting ones are
discarded, the registers are reset, the command offered with it is not accepted, and nothing else changes. -/
def Obligations.ResetDuringOutputDiscardsWaiting : Prop :=
  (∀ (s : State) (k : Nat) (e : EncInst) (w : Option CmdWord) (rest : List Input),
    s.inputs = .resetDuringOutput (.enc k) w :: rest → s.encs[k]? = some e →
    ∃ e' : EncInst, step s = .next { s with encs := s.encs.set k e', inputs := rest } ∧
      e'.esc = e.esc ∧ e'.runLength = 0#8 ∧ e'.pending.read? = none ∧ e'.sink.out = e.sink.delivered ∧
      e'.sink.undelivered = 0 ∧ e'.sink.ready = e.sink.ready) ∧
  (∀ (s : State) (j : Nat) (d : DecInst) (w : Option CmdWord) (rest : List Input),
    s.inputs = .resetDuringOutput (.dec j) w :: rest → s.decs[j]? = some d →
    ∃ d' : DecInst, step s = .next { s with decs := s.decs.set j d', inputs := rest } ∧
      d'.esc = d.esc ∧ d'.phase = .normal ∧ d'.pending.read? = none ∧ d'.sink.out = d.sink.delivered ∧
      d'.sink.undelivered = 0 ∧ d'.sink.ready = d.sink.ready)

/-! ### Pseudo-operations -/

/-- R84, R100: feeding any chunks one after another, each as one bulk ingest, is the same, output and final state, as
feeding the whole sequence byte by byte. -/
def Obligations.ChunksAgreeWithWhole : Prop :=
  (∀ (s : State) (k : Nat) (chunks : List (List Byte)),
    chunks.foldl (fun o c => andThen o (execAll (encIngestBuffer k c))) (.next s) =
      execAll (chunks.flatten.map (.encIngest k)) s) ∧
  (∀ (s : State) (j : Nat) (chunks : List (List Byte)),
    chunks.foldl (fun o c => andThen o (execAll (decIngestBuffer j c))) (.next s) =
      execAll (chunks.flatten.map (.decIngest j)) s)

/-- R69: a string ingests the bytes before its first 0x00, and never the 0x00. -/
def Obligations.StringStopsAtFirstZero : Prop :=
  ∀ (k j : Nat) (xs ys : List Byte), 0x00#8 ∉ xs →
    encIngestString k (xs ++ 0x00#8 :: ys) = xs.map (.encIngest k) ∧
    decIngestString j (xs ++ 0x00#8 :: ys) = xs.map (.decIngest j)
end

