-- ==== Sys2Proof/Laws/State.lean ====
section
/-! SUPPORT. Laws/State.lean: the fields of each state record after each update, so that no later proof unfolds one. -/

namespace Sys2Proof.Machine

variable (s : State) (k j m : Nat) (e : EncInst) (d : DecInst) (q : SinkPort) (r : PendingReg) (is : List Input)

@[simp] theorem State.setEnc_encs : (s.setEnc k e).encs = s.encs.set k e := rfl
@[simp] theorem State.setEnc_decs : (s.setEnc k e).decs = s.decs := rfl
@[simp] theorem State.setEnc_inputs : (s.setEnc k e).inputs = s.inputs := rfl
@[simp] theorem State.setDec_encs : (s.setDec j d).encs = s.encs := rfl
@[simp] theorem State.setDec_decs : (s.setDec j d).decs = s.decs.set j d := rfl
@[simp] theorem State.setDec_inputs : (s.setDec j d).inputs = s.inputs := rfl
@[simp] theorem State.setInputs_encs : (s.setInputs is).encs = s.encs := rfl
@[simp] theorem State.setInputs_decs : (s.setInputs is).decs = s.decs := rfl
@[simp] theorem State.setInputs_inputs : (s.setInputs is).inputs = is := rfl

@[simp] theorem State.transferAll_inputs : s.transferAll.inputs = s.inputs := rfl
@[simp] theorem State.transferAll_encs : s.transferAll.encs = s.encs.map (EncInst.onSink SinkPort.transfer) := rfl
@[simp] theorem State.transferAll_decs : s.transferAll.decs = s.decs.map (DecInst.onSink SinkPort.transfer) := rfl

@[simp] theorem State.onSinkAt_inputs (p : Port) (f : SinkPort → SinkPort) : (s.onSinkAt p f).inputs = s.inputs := by
  cases p <;> rfl
@[simp] theorem State.resetAt_inputs (p : Port) : (s.resetAt p).inputs = s.inputs := by cases p <;> rfl

@[simp] theorem EncInst.onSink_esc (f : SinkPort → SinkPort) : (e.onSink f).esc = e.esc := rfl
@[simp] theorem EncInst.onSink_pending (f : SinkPort → SinkPort) : (e.onSink f).pending = e.pending := rfl
@[simp] theorem EncInst.onSink_runLength (f : SinkPort → SinkPort) : (e.onSink f).runLength = e.runLength := rfl
@[simp] theorem EncInst.onSink_sink (f : SinkPort → SinkPort) : (e.onSink f).sink = f e.sink := rfl
@[simp] theorem DecInst.onSink_esc (f : SinkPort → SinkPort) : (d.onSink f).esc = d.esc := rfl
@[simp] theorem DecInst.onSink_phase (f : SinkPort → SinkPort) : (d.onSink f).phase = d.phase := rfl
@[simp] theorem DecInst.onSink_pending (f : SinkPort → SinkPort) : (d.onSink f).pending = d.pending := rfl
@[simp] theorem DecInst.onSink_sink (f : SinkPort → SinkPort) : (d.onSink f).sink = f d.sink := rfl

@[simp] theorem EncInst.reset_esc : e.reset.esc = e.esc := rfl
@[simp] theorem EncInst.reset_pending : e.reset.pending = .noValue := rfl
@[simp] theorem EncInst.reset_runLength : e.reset.runLength = 0#8 := rfl
@[simp] theorem EncInst.reset_sink : e.reset.sink = e.sink.reset := rfl
@[simp] theorem DecInst.reset_esc : d.reset.esc = d.esc := rfl
@[simp] theorem DecInst.reset_phase : d.reset.phase = .normal := rfl
@[simp] theorem DecInst.reset_pending : d.reset.pending = .noValue := rfl
@[simp] theorem DecInst.reset_sink : d.reset.sink = d.sink.reset := rfl

@[simp] theorem EncInst.startRun_esc (b : Byte) : (e.startRun b).esc = e.esc := rfl
@[simp] theorem EncInst.startRun_pending (b : Byte) : (e.startRun b).pending = .write b := rfl
@[simp] theorem EncInst.startRun_runLength (b : Byte) : (e.startRun b).runLength = 1#8 := rfl
@[simp] theorem EncInst.startRun_sink (b : Byte) : (e.startRun b).sink = e.sink := rfl
@[simp] theorem EncInst.countUp_esc : e.countUp.esc = e.esc := rfl
@[simp] theorem EncInst.countUp_pending : e.countUp.pending = e.pending := rfl
@[simp] theorem EncInst.countUp_runLength : e.countUp.runLength = e.runLength + 1#8 := rfl
@[simp] theorem EncInst.countUp_sink : e.countUp.sink = e.sink := rfl
@[simp] theorem EncInst.closeRun_esc (p : Byte) : (e.closeRun p).esc = e.esc := rfl
@[simp] theorem EncInst.closeRun_pending (p : Byte) : (e.closeRun p).pending = e.pending := rfl
@[simp] theorem EncInst.closeRun_runLength (p : Byte) : (e.closeRun p).runLength = 0#8 := rfl
@[simp] theorem EncInst.closeRun_sink (p : Byte) :
    (e.closeRun p).sink = e.sink.emitAll (flushBytes e.esc p e.runLength) := rfl

@[simp] theorem EncInst.launch_esc (E : Byte) : (EncInst.launch E).esc = E := rfl
@[simp] theorem EncInst.launch_pending (E : Byte) : (EncInst.launch E).pending = .noValue := rfl
@[simp] theorem EncInst.launch_runLength (E : Byte) : (EncInst.launch E).runLength = 0#8 := rfl
@[simp] theorem EncInst.launch_sink (E : Byte) : (EncInst.launch E).sink = .launch := rfl
@[simp] theorem DecInst.launch_esc (E : Byte) : (DecInst.launch E).esc = E := rfl
@[simp] theorem DecInst.launch_phase (E : Byte) : (DecInst.launch E).phase = .normal := rfl
@[simp] theorem DecInst.launch_pending (E : Byte) : (DecInst.launch E).pending = .noValue := rfl
@[simp] theorem DecInst.launch_sink (E : Byte) : (DecInst.launch E).sink = .launch := rfl

@[simp] theorem SinkPort.emitAll_out (vs : List Byte) : (q.emitAll vs).out = q.out ++ vs := rfl
@[simp] theorem SinkPort.emitAll_undelivered (vs : List Byte) :
    (q.emitAll vs).undelivered = q.undelivered + vs.length := rfl
@[simp] theorem SinkPort.emitAll_ready (vs : List Byte) : (q.emitAll vs).ready = q.ready := rfl
@[simp] theorem SinkPort.emitAll_nil : q.emitAll [] = q := by simp [SinkPort.emitAll]
@[simp] theorem SinkPort.reset_out : q.reset.out = q.delivered := rfl
@[simp] theorem SinkPort.reset_undelivered : q.reset.undelivered = 0 := rfl
@[simp] theorem SinkPort.reset_ready : q.reset.ready = q.ready := rfl
@[simp] theorem SinkPort.settle_out : q.settle.out = q.out := rfl
@[simp] theorem SinkPort.settle_undelivered : q.settle.undelivered = 0 := rfl
@[simp] theorem SinkPort.settle_ready : q.settle.ready = q.ready := rfl
@[simp] theorem SinkPort.setReady_out (b : Bool) : (q.setReady b).out = q.out := rfl
@[simp] theorem SinkPort.setReady_undelivered (b : Bool) : (q.setReady b).undelivered = q.undelivered := rfl
@[simp] theorem SinkPort.setReady_ready (b : Bool) : (q.setReady b).ready = b := rfl
@[simp] theorem SinkPort.launch_out : SinkPort.launch.out = [] := rfl
@[simp] theorem SinkPort.launch_undelivered : SinkPort.launch.undelivered = 0 := rfl
@[simp] theorem SinkPort.launch_ready : SinkPort.launch.ready = true := rfl

@[simp] theorem SinkPort.transfer_out : q.transfer.out = q.out := by
  unfold SinkPort.transfer; split <;> rfl
@[simp] theorem SinkPort.transfer_ready : q.transfer.ready = q.ready := by
  unfold SinkPort.transfer; split <;> rfl

@[simp] theorem PendingReg.read?_noValue : PendingReg.noValue.read? = none := rfl
@[simp] theorem PendingReg.read?_write (b : Byte) : (PendingReg.write b).read? = some b := rfl
@[simp] theorem PendingReg.write_byte (b : Byte) : (PendingReg.write b).byte = b := rfl
@[simp] theorem PendingReg.write_written (b : Byte) : (PendingReg.write b).written = true := rfl
@[simp] theorem PendingReg.noValue_written : PendingReg.noValue.written = false := rfl

/-- A register that holds a value is read as that value. -/
theorem PendingReg.read?_of_written (h : r.written = true) : r.read? = some r.byte := by
  simp [PendingReg.read?, h]

/-- A register that holds no value has none to read. -/
theorem PendingReg.read?_of_not_written (h : r.written = false) : r.read? = none := by
  simp [PendingReg.read?, h]

end Sys2Proof.Machine
end

