-- ==== Sys2Proof/Laws/Ops.lean ====
section
/-! SUPPORT. Laws/Ops.lean: one lemma per shared operation that says everything it can do; callers cite it and do not unfold
the operation. -/

namespace Sys2Proof.Machine

/-! ### Output ports -/

/-- `Emit` of a list is `Emit` of its bytes one after another (R16). -/
theorem SinkPort.emitAll_cons (v : Byte) (vs : List Byte) (q : SinkPort) :
    q.emitAll (v :: vs) = (q.emit v).emitAll vs := by
  simp [SinkPort.emitAll, SinkPort.emit, Nat.add_comm, Nat.add_assoc]

/-- Two emissions in a row are one (R49). -/
theorem SinkPort.emitAll_emitAll (vs ws : List Byte) (q : SinkPort) :
    (q.emitAll vs).emitAll ws = q.emitAll (vs ++ ws) := by
  simp [SinkPort.emitAll, Nat.add_assoc]

/-- `Emit` of one byte. -/
theorem SinkPort.emit_eq_emitAll (v : Byte) (q : SinkPort) : q.emit v = q.emitAll [v] := rfl

/-- What is emitted is not delivered yet. -/
@[simp] theorem SinkPort.delivered_emitAll (vs : List Byte) (q : SinkPort) : (q.emitAll vs).delivered = q.delivered := by
  simp [SinkPort.delivered, List.take_append, Nat.add_sub_add_right]

/-- A port is busy exactly while a byte waits (R141). -/
theorem SinkPort.busy_iff (q : SinkPort) : q.busy = true ↔ q.undelivered ≠ 0 := by
  simp [SinkPort.busy]

/-- An output cycle of a busy port with a ready sink (R45). -/
theorem SinkPort.transfer_moves (q : SinkPort) (hb : q.undelivered ≠ 0) (hr : q.ready = true) :
    q.transfer = { q with undelivered := q.undelivered - 1 } := by
  simp [SinkPort.transfer, SinkPort.busy, hb, hr]

/-- An output cycle in which nothing can move (R45). -/
theorem SinkPort.transfer_idle (q : SinkPort) (h : q.undelivered = 0 ∨ q.ready = false) : q.transfer = q := by
  rcases h with h | h <;> simp [SinkPort.transfer, SinkPort.busy, h]

/-! ### Changing one element of a list -/

/-- Two changes that agree on the `k`-th element change the list alike. -/
theorem modify_congr_at {α : Type} {l : List α} {k : Nat} {a : α} {f g : α → α} (h : l[k]? = some a) (hf : f a = g a) :
    l.modify k f = l.modify k g := by
  apply List.ext_getElem?
  intro i
  simp only [List.getElem?_modify]
  by_cases hi : k = i
  · subst hi; simp [h, hf]
  · simp [hi]

/-- A change of one element keeps what holds of all. -/
theorem forall_mem_modify {α : Type} {P : α → Prop} {l : List α} {k : Nat} {f : α → α} (h : ∀ a ∈ l, P a)
    (hf : ∀ a, P a → P (f a)) : ∀ a ∈ l.modify k f, P a := by
  intro a ha
  obtain ⟨i, hi⟩ := List.mem_iff_getElem?.mp ha
  rw [List.getElem?_modify] at hi
  simp only [Option.map_eq_map, Option.map_eq_some_iff] at hi
  obtain ⟨b, hb, rfl⟩ := hi
  have hP := h b (List.mem_of_getElem? hb)
  split
  · exact hf _ hP
  · exact hP

/-- A replaced element that meets what all meet keeps it so. -/
theorem forall_mem_set {α : Type} {P : α → Prop} {l : List α} {k : Nat} {x : α} (h : ∀ a ∈ l, P a) (hx : P x) :
    ∀ a ∈ l.set k x, P a := by
  intro a ha
  rcases List.mem_or_eq_of_mem_set ha with h' | rfl
  · exact h a h'
  · exact hx

/-! ### The port of one instance -/

@[simp] theorem State.sinkAt?_setInputs (s : State) (is : List Input) (p : Port) :
    (s.setInputs is).sinkAt? p = s.sinkAt? p := by cases p <;> rfl

/-- Two changes of a port that agree on it change the state alike. -/
theorem State.onSinkAt_congr {s : State} {p : Port} {q : SinkPort} {f g : SinkPort → SinkPort}
    (h : s.sinkAt? p = some q) (hf : f q = g q) : s.onSinkAt p f = s.onSinkAt p g := by
  cases p with
  | enc k =>
    simp only [State.sinkAt?, Option.map_eq_some_iff] at h
    obtain ⟨e, he, rfl⟩ := h
    simp only [State.onSinkAt]
    rw [modify_congr_at he (g := EncInst.onSink g) (by simp [EncInst.onSink, hf])]
  | dec k =>
    simp only [State.sinkAt?, Option.map_eq_some_iff] at h
    obtain ⟨d, hd, rfl⟩ := h
    simp only [State.onSinkAt]
    rw [modify_congr_at hd (g := DecInst.onSink g) (by simp [DecInst.onSink, hf])]

/-- A change that leaves the port as it is leaves the state as it is. -/
theorem State.onSinkAt_self {s : State} {p : Port} {q : SinkPort} {f : SinkPort → SinkPort}
    (h : s.sinkAt? p = some q) (hf : f q = q) : s.onSinkAt p f = s := by
  rw [State.onSinkAt_congr (g := id) h hf]
  have he : EncInst.onSink id = id := rfl
  have hd : DecInst.onSink id = id := rfl
  cases p <;> simp [State.onSinkAt, he, hd]

/-- The changed port. -/
theorem State.sinkAt?_onSinkAt {s : State} {p : Port} {q : SinkPort} {f : SinkPort → SinkPort}
    (h : s.sinkAt? p = some q) : (s.onSinkAt p f).sinkAt? p = some (f q) := by
  cases p with
  | enc k =>
    simp only [State.sinkAt?, Option.map_eq_some_iff] at h
    obtain ⟨e, he, rfl⟩ := h
    simp [State.onSinkAt, State.sinkAt?, he]
  | dec k =>
    simp only [State.sinkAt?, Option.map_eq_some_iff] at h
    obtain ⟨d, hd, rfl⟩ := h
    simp [State.onSinkAt, State.sinkAt?, hd]

/-- Two changes of one port are one. -/
theorem State.onSinkAt_onSinkAt (s : State) (p : Port) (f g : SinkPort → SinkPort) :
    (s.onSinkAt p f).onSinkAt p g = s.onSinkAt p (g ∘ f) := by
  cases p <;> simp [State.onSinkAt, List.modify_modify_eq] <;> rfl

/-! ### Transitions of one instance -/

/-- The replaced ENC instance. -/
theorem State.setEnc_getElem? {s : State} {k : Nat} {e e' : EncInst} (h : s.encs[k]? = some e) :
    (s.setEnc k e').encs[k]? = some e' := by
  have hk := (List.getElem?_eq_some_iff.mp h).1
  simp [hk]

/-- The replaced DEC instance. -/
theorem State.setDec_getElem? {s : State} {j : Nat} {d d' : DecInst} (h : s.decs[j]? = some d) :
    (s.setDec j d').decs[j]? = some d' := by
  have hj := (List.getElem?_eq_some_iff.mp h).1
  simp [hj]

/-- Everything `onEnc` can answer. -/
theorem onEnc_cases (k : Nat) (f : EncInst → Except Fault EncInst) (s : State) :
    (s.encs[k]? = none ∧ onEnc k f s = .refused (.noSuchPort (.enc k))) ∨
    (∃ e r, s.encs[k]? = some e ∧ f e = .error r ∧ onEnc k f s = .fault r) ∨
    (∃ e e', s.encs[k]? = some e ∧ f e = .ok e' ∧ onEnc k f s = .next (s.setEnc k e')) := by
  unfold onEnc
  cases hk : s.encs[k]? with
  | none => exact .inl ⟨rfl, rfl⟩
  | some e =>
    cases hf : f e with
    | error r => exact .inr (.inl ⟨e, r, rfl, hf, by simp [hf]⟩)
    | ok e' => exact .inr (.inr ⟨e, e', rfl, hf, by simp [hf]⟩)

/-- `onEnc` on an instance whose transition completes. -/
theorem onEnc_ok {k : Nat} {f : EncInst → Except Fault EncInst} {s : State} {e e' : EncInst}
    (hk : s.encs[k]? = some e) (hf : f e = .ok e') : onEnc k f s = .next (s.setEnc k e') := by
  simp [onEnc, hk, hf]

/-- If `onEnc` answers a next state, the instance's transition completed and nothing else changed. -/
theorem onEnc_next {k : Nat} {f : EncInst → Except Fault EncInst} {s t : State} (h : onEnc k f s = .next t) :
    ∃ e e', s.encs[k]? = some e ∧ f e = .ok e' ∧ t = s.setEnc k e' := by
  obtain ⟨-, h'⟩ | ⟨e, r, -, -, h'⟩ | ⟨e, e', hk, hf, h'⟩ := onEnc_cases k f s
  · simp [h'] at h
  · simp [h'] at h
  · rw [h', Host.Outcome.next.injEq] at h
    exact ⟨e, e', hk, hf, h.symm⟩

/-- Everything `onDec` can answer. -/
theorem onDec_cases (j : Nat) (f : DecInst → Except Fault DecInst) (s : State) :
    (s.decs[j]? = none ∧ onDec j f s = .refused (.noSuchPort (.dec j))) ∨
    (∃ d r, s.decs[j]? = some d ∧ f d = .error r ∧ onDec j f s = .fault r) ∨
    (∃ d d', s.decs[j]? = some d ∧ f d = .ok d' ∧ onDec j f s = .next (s.setDec j d')) := by
  unfold onDec
  cases hj : s.decs[j]? with
  | none => exact .inl ⟨rfl, rfl⟩
  | some d =>
    cases hf : f d with
    | error r => exact .inr (.inl ⟨d, r, rfl, hf, by simp [hf]⟩)
    | ok d' => exact .inr (.inr ⟨d, d', rfl, hf, by simp [hf]⟩)

/-- `onDec` on an instance whose transition completes. -/
theorem onDec_ok {j : Nat} {f : DecInst → Except Fault DecInst} {s : State} {d d' : DecInst}
    (hj : s.decs[j]? = some d) (hf : f d = .ok d') : onDec j f s = .next (s.setDec j d') := by
  simp [onDec, hj, hf]

/-- If `onDec` answers a next state, the instance's transition completed and nothing else changed. -/
theorem onDec_next {j : Nat} {f : DecInst → Except Fault DecInst} {s t : State} (h : onDec j f s = .next t) :
    ∃ d d', s.decs[j]? = some d ∧ f d = .ok d' ∧ t = s.setDec j d' := by
  obtain ⟨-, h'⟩ | ⟨d, r, -, -, h'⟩ | ⟨d, d', hj, hf, h'⟩ := onDec_cases j f s
  · simp [h'] at h
  · simp [h'] at h
  · rw [h', Host.Outcome.next.injEq] at h
    exact ⟨d, d', hj, hf, h.symm⟩

/-! ### The encoder's shared operations -/

/-- FlushCore with no open run does nothing (R73). -/
theorem flushCore_closed {e : EncInst} (h : e.runLength = 0#8) : flushCore e = .ok e := by
  simp [flushCore, encOpen, h]

/-- FlushCore with an open run whose byte is held emits the run and closes it (R73). -/
theorem flushCore_open {e : EncInst} (h : e.runLength ≠ 0#8) (hp : e.pending.written = true) :
    flushCore e = .ok (e.closeRun e.pending.byte) := by
  simp [flushCore, encOpen, h, PendingReg.read?_of_written _ hp]

/-- FlushCore with an open run whose byte is missing faults (R113). -/
theorem flushCore_missing {e : EncInst} (h : e.runLength ≠ 0#8) (hp : e.pending.written = false) :
    flushCore e = .error .readUnwrittenPending := by
  simp [flushCore, encOpen, h, PendingReg.read?_of_not_written _ hp]

/-- Everything FlushCore can do. -/
theorem flushCore_cases (e : EncInst) :
    (e.runLength = 0#8 ∧ flushCore e = .ok e) ∨
    (e.runLength ≠ 0#8 ∧ e.pending.written = true ∧ flushCore e = .ok (e.closeRun e.pending.byte)) ∨
    (e.runLength ≠ 0#8 ∧ e.pending.written = false ∧ flushCore e = .error .readUnwrittenPending) := by
  by_cases h : e.runLength = 0#8
  · exact .inl ⟨h, flushCore_closed h⟩
  · cases hp : e.pending.written with
    | true => exact .inr (.inl ⟨h, rfl, flushCore_open h hp⟩)
    | false => exact .inr (.inr ⟨h, rfl, flushCore_missing h hp⟩)

/-- Everything ENC_INGEST can do to its instance (R76): case 1, case 2 below and at 255, case 3, or the fault of R113. -/
theorem encIngestOn_cases (b : Byte) (e : EncInst) :
    (e.runLength = 0#8 ∧ encIngestOn b e = .ok (e.startRun b)) ∨
    (e.runLength ≠ 0#8 ∧ e.pending.written = true ∧ b = e.pending.byte ∧ e.runLength + 1#8 ≠ 255#8 ∧
      encIngestOn b e = .ok e.countUp) ∨
    (e.runLength ≠ 0#8 ∧ e.pending.written = true ∧ b = e.pending.byte ∧ e.runLength + 1#8 = 255#8 ∧
      encIngestOn b e = .ok (e.countUp.closeRun e.pending.byte)) ∨
    (e.runLength ≠ 0#8 ∧ e.pending.written = true ∧ b ≠ e.pending.byte ∧
      encIngestOn b e = .ok ((e.closeRun e.pending.byte).startRun b)) ∨
    (e.runLength ≠ 0#8 ∧ e.pending.written = false ∧ encIngestOn b e = .error .readUnwrittenPending) := by
  by_cases h : e.runLength = 0#8
  · exact .inl ⟨h, by simp [encIngestOn, encOpen, h]⟩
  · cases hp : e.pending.written with
    | false =>
      exact .inr (.inr (.inr (.inr ⟨h, rfl, by simp [encIngestOn, encOpen, h, PendingReg.read?_of_not_written _ hp]⟩)))
    | true =>
      have hr := PendingReg.read?_of_written _ hp
      by_cases hb : b = e.pending.byte
      · by_cases h255 : e.runLength + 1#8 = 255#8
        · refine .inr (.inr (.inl ⟨h, rfl, hb, h255, ?_⟩))
          have hf : flushCore e.countUp = .ok (e.countUp.closeRun e.pending.byte) :=
            flushCore_open (e := e.countUp) (by simp [h255]) (by simpa using hp)
          simp [encIngestOn, encOpen, h, hr, hb, h255, Config.maxRun, hf]
        · exact .inr (.inl ⟨h, rfl, hb, h255, by simp [encIngestOn, encOpen, h, hr, hb, h255, Config.maxRun]⟩)
      · exact .inr (.inr (.inr (.inl ⟨h, rfl, hb, by simp [encIngestOn, encOpen, h, hr, hb, flushCore_open h hp]⟩)))

/-- The framing condition in plain numbers (R73). -/
theorem needsFrame_iff (esc p n : Byte) : needsFrame esc p n = true ↔ 3 < n.toNat ∨ p = esc := by
  simp only [needsFrame, Bool.or_eq_true, decide_eq_true_eq, beq_iff_eq, BitVec.lt_def]
  rfl

/-- What FlushCore emits, with its condition in plain numbers (R73, R75). -/
theorem flushBytes_eq (esc p n : Byte) :
    flushBytes esc p n = if 3 < n.toNat ∨ p = esc then [esc, p, n] else List.replicate n.toNat p := by
  unfold flushBytes
  by_cases h : needsFrame esc p n = true
  · rw [if_pos h, if_pos ((needsFrame_iff esc p n).mp h)]; rfl
  · rw [if_neg h, if_neg (mt (needsFrame_iff esc p n).mpr h)]; rfl

/-- What FlushCore emits is at most three bytes long (R75). -/
theorem flushBytes_length_le (esc p n : Byte) : (flushBytes esc p n).length ≤ 3 := by
  rw [flushBytes_eq]
  split
  · simp
  · simp only [List.length_replicate]; omega

/-! ### The decoder's operation -/

/-- Everything DEC_INGEST can do to its instance (R90, R91), or the fault of R113. -/
theorem decIngestOn_cases (b : Byte) (d : DecInst) :
    (d.phase = .normal ∧ b = d.esc ∧ decIngestOn b d = .ok { d with phase := .sawEscape }) ∨
    (d.phase = .normal ∧ b ≠ d.esc ∧ decIngestOn b d = .ok { d with sink := d.sink.emitAll [b] }) ∨
    (d.phase = .sawEscape ∧ decIngestOn b d = .ok { d with pending := .write b, phase := .sawEscapeAndByte }) ∨
    (d.phase = .sawEscapeAndByte ∧ (b = 0#8 ∨ d.pending.written = true) ∧
      decIngestOn b d =
        .ok { d with phase := .normal, sink := d.sink.emitAll (List.replicate b.toNat d.pending.byte) }) ∨
    (d.phase = .sawEscapeAndByte ∧ b ≠ 0#8 ∧ d.pending.written = false ∧
      decIngestOn b d = .error .readUnwrittenPending) := by
  cases hph : d.phase with
  | normal =>
    by_cases hb : b = d.esc
    · exact .inl ⟨rfl, hb, by simp [decIngestOn, hph, hb]⟩
    · exact .inr (.inl ⟨rfl, hb, by simp [decIngestOn, hph, hb, SinkPort.emit_eq_emitAll]⟩)
  | sawEscape => exact .inr (.inr (.inl ⟨rfl, by simp [decIngestOn, hph]⟩))
  | sawEscapeAndByte =>
    by_cases h0 : b = 0#8
    · exact .inr (.inr (.inr (.inl ⟨rfl, .inl h0, by simp [decIngestOn, hph, h0, repeatCount]⟩)))
    · have hn : repeatCount b ≠ 0 := fun h => h0 (BitVec.eq_of_toNat_eq h)
      cases hp : d.pending.written with
      | true =>
        exact .inr (.inr (.inr (.inl ⟨rfl, .inr rfl, by
          simp [decIngestOn, hph, hn, PendingReg.read?_of_written _ hp, repeated]
          rfl⟩)))
      | false =>
        exact .inr (.inr (.inr (.inr ⟨rfl, h0, rfl, by
          simp [decIngestOn, hph, hn, PendingReg.read?_of_not_written _ hp]⟩)))

end Sys2Proof.Machine
end

