-- ==== Sys2Proof/Laws/Exec.lean ====
section
/-! SUPPORT. Laws/Exec.lean: what `exec`, `execAll` and `step` unfold to, and everything a step can be. -/

namespace Sys2Proof.Machine

theorem exec_encIngest (k : Nat) (b : Byte) (s : State) : exec (.encIngest k b) s = onEnc k (encIngestOn b) s := rfl
theorem exec_encFlush (k : Nat) (s : State) : exec (.encFlush k) s = onEnc k flushCore s := rfl
theorem exec_decIngest (k : Nat) (b : Byte) (s : State) : exec (.decIngest k b) s = onDec k (decIngestOn b) s := rfl

@[simp] theorem execAll_nil (s : State) : execAll [] s = .next s := rfl

/-- A list of commands goes on from the state its first command leaves. -/
theorem execAll_cons (i : Instr) (is : List Instr) (s : State) : execAll (i :: is) s = andThen (exec i s) (execAll is) := by
  cases h : exec i s <;> simp only [execAll, andThen, h]

/-- A list of commands in two parts. -/
theorem execAll_append (is js : List Instr) (s : State) :
    execAll (is ++ js) s = andThen (execAll is s) (execAll js) := by
  induction is generalizing s with
  | nil => rfl
  | cons i is ih =>
    rw [List.cons_append, execAll_cons, execAll_cons]
    cases exec i s with
    | next t => exact ih t
    | fault r => rfl
    | refused r => rfl

@[simp] theorem runSteps_zero (s : State) : runSteps 0 s = .next s := rfl

theorem runSteps_succ (n : Nat) (s : State) : runSteps (n + 1) s = andThen (step s) (runSteps n) := rfl

/-- The host's run of any machine goes on from the next state. -/
theorem core_run_next (M : Host.Core) (n : Nat) {s t : M.State} (h : M.step s = .next t) :
    M.run (n + 1) s = M.run n t := by simp only [Host.Core.run, h]

/-- The host's run of any machine stops at a fault. -/
theorem core_run_fault (M : Host.Core) (n : Nat) {s : M.State} {r : M.Fault} (h : M.step s = .fault r) :
    M.run (n + 1) s = .fault r := by simp only [Host.Core.run, h]

/-- The host's run of any machine stops at a refusal. -/
theorem core_run_refused (M : Host.Core) (n : Nat) {s : M.State} {r : M.Refusal} (h : M.step s = .refused r) :
    M.run (n + 1) s = .refused r := by simp only [Host.Core.run, h]

/-- `runSteps` is the host's run of this machine. -/
theorem runSteps_eq_core_run (n : Nat) (s : State) : runSteps n s = Sys2Proof.core.run n s := by
  induction n generalizing s with
  | zero => rfl
  | succ n ih =>
    cases h : step s with
    | next t => rw [runSteps_succ, h]; exact (ih t).trans (core_run_next Sys2Proof.core n h).symm
    | fault r => rw [runSteps_succ, h]; exact (core_run_fault Sys2Proof.core n h).symm
    | refused r => rw [runSteps_succ, h]; exact (core_run_refused Sys2Proof.core n h).symm

/-- Commands never touch the host's list. -/
theorem exec_inputs {i : Instr} {s t : State} (h : exec i s = .next t) : t.inputs = s.inputs := by
  cases i with
  | encIngest k b => obtain ⟨_, _, -, -, rfl⟩ := onEnc_next h; rfl
  | encFlush k => obtain ⟨_, _, -, -, rfl⟩ := onEnc_next h; rfl
  | decIngest j b => obtain ⟨_, _, -, -, rfl⟩ := onDec_next h; rfl

/-- A command read on a port is a command of that port (R56). -/
theorem port_of_decode {p : Port} {w : CmdWord} {i : Instr} (h : decode p w = .command i) : i.port = p := by
  cases p with
  | enc k =>
    simp only [decode, decodeEnc] at h
    split at h
    · cases h; rfl
    · split at h <;> cases h
      rfl
  | dec k =>
    simp only [decode, decodeDec] at h
    split at h <;> cases h
    rfl

/-- An instance is busy exactly while it has an output byte to deliver (R141). -/
theorem State.busyAt_iff {s : State} {p : Port} :
    s.busyAt p = true ↔ ∃ q, s.sinkAt? p = some q ∧ q.undelivered ≠ 0 := by
  unfold State.busyAt
  cases h : s.sinkAt? p <;> simp [SinkPort.busy]

/-- The busy instance on a port that the platform has. -/
theorem State.busyAt_of_sink {s : State} {p : Port} {q : SinkPort} (h : s.sinkAt? p = some q) :
    s.busyAt p = q.busy := by simp only [State.busyAt, h]

@[simp] theorem State.busyAt_setInputs (s : State) (is : List Input) (p : Port) :
    (s.setInputs is).busyAt p = s.busyAt p := by simp only [State.busyAt, State.sinkAt?_setInputs]

/-- An input of a host happens at the host's port. -/
theorem Input.port_of_hostPort? {x : Input} {p : Port} (h : x.hostPort? = some p) : x.port = p := by
  cases x <;> simp_all [Input.hostPort?, Input.port]

/-- What waits is a host's, at a busy instance, if what it waits behind is. -/
theorem State.busyAt_of_waits {s : State} {held : List Port} {x : Input} (hh : ∀ p ∈ held, s.busyAt p = true)
    (h : s.waits held x = true) : s.busyAt x.port = true ∧ x.hostPort? = some x.port := by
  cases x <;> simp_all [State.waits, Input.port, Input.hostPort?]

/-- Everything `nextInput?` can answer: nothing, and every input waits; or an input that does not wait and the others, those
before it all waiting. -/
theorem State.nextInput?_cases {s : State} (held : List Port) (is : List Input) (hh : ∀ p ∈ held, s.busyAt p = true) :
    (s.nextInput? held is = none ∧ ∀ x ∈ is, s.busyAt x.port = true ∧ x.hostPort? = some x.port) ∨
    (∃ pre x post, is = pre ++ x :: post ∧ s.nextInput? held is = some (x, pre ++ post) ∧
      (∀ y ∈ pre, s.busyAt y.port = true ∧ y.hostPort? = some y.port) ∧
      s.waits ((pre.map Input.port).reverse ++ held) x = false) := by
  induction is generalizing held with
  | nil => exact .inl ⟨rfl, by simp⟩
  | cons x rest ih =>
    cases hw : s.waits held x with
    | false => exact .inr ⟨[], x, rest, rfl, by simp [State.nextInput?, hw], by simp, by simpa using hw⟩
    | true =>
      have hx := State.busyAt_of_waits hh hw
      rcases ih (x.port :: held) (by simpa using ⟨hx.1, hh⟩) with ⟨hn, ha⟩ | ⟨pre, y, post, rfl, hn, ha, hy⟩
      · exact .inl ⟨by simp [State.nextInput?, hw, hn], by simpa using ⟨hx, ha⟩⟩
      · exact .inr ⟨x :: pre, y, post, rfl, by simp [State.nextInput?, hw, hn], by simpa using ⟨hx, ha⟩, by simpa using hy⟩

/-- An oldest input that does not wait is the next one. -/
theorem State.nextInput?_head {s : State} {held : List Port} {x : Input} {rest : List Input} (h : s.waits held x = false) :
    s.nextInput? held (x :: rest) = some (x, rest) := by simp [State.nextInput?, h]

/-- A step whose oldest input does not wait is that input. -/
theorem step_head {s : State} {x : Input} {rest : List Input} (hi : s.inputs = x :: rest) (h : s.waits [] x = false) :
    step s = perform x (s.setInputs rest) := by
  simp only [step, stepMachine, hi, State.nextInput?_head h]

/-- The step of the input that is next. -/
theorem step_of_nextInput {s : State} {c : Input × List Input} (h : s.nextInput? [] s.inputs = some c) :
    step s = perform c.1 (s.setInputs c.2) := by simp only [step, stepMachine, h]

/-- When no input can happen, every sink has an output cycle. -/
theorem step_no_input {s : State} (h : s.nextInput? [] s.inputs = none) : step s = .next s.transferAll := by
  simp only [step, stepMachine, h]

/-- A table's "output" and "after" columns, over the model's `emitAll`. -/
theorem EncInst.after_eq (e : EncInst) (p : PendingReg) (n : Byte) (bs : List Byte) :
    e.after p n bs = { e with pending := p, runLength := n, sink := e.sink.emitAll bs } := rfl

/-- A table's "action" and "next phase" columns, over the model's `emitAll`. -/
theorem DecInst.after_eq (d : DecInst) (ph : Phase) (p : PendingReg) (bs : List Byte) :
    d.after ph p bs = { d with phase := ph, pending := p, sink := d.sink.emitAll bs } := rfl

/-- An input at a port answers a next state only if the platform has the port. -/
theorem atPort_next {p : Port} {f : State → State} {s t : State} (h : atPort p f s = .next t) :
    ∃ q, s.sinkAt? p = some q ∧ t = f s := by
  unfold atPort at h
  split at h
  · cases h
  · rename_i q hq
    simp only [Host.Outcome.next.injEq] at h
    exact ⟨q, hq, h.symm⟩

/-- The reset step answers a next state only at an idle instance (R132). -/
theorem resetStep_next {p : Port} {s t : State} (h : resetStep p s = .next t) :
    ∃ q, s.sinkAt? p = some q ∧ q.undelivered = 0 ∧ t = s.resetAt p := by
  unfold resetStep at h
  split at h
  · cases h
  · rename_i q hq
    split at h
    · cases h
    · rename_i hb
      simp only [Host.Outcome.next.injEq] at h
      exact ⟨q, hq, by simpa [SinkPort.busy] using hb, h.symm⟩

/-- An idle instance has delivered its whole stream. -/
theorem SinkPort.delivered_of_idle {q : SinkPort} (h : q.undelivered = 0) : q.delivered = q.out := by
  simp [SinkPort.delivered, h]

/-- Everything an input can do when it answers a next state. -/
theorem perform_cases {x : Input} {s t : State} (h : perform x s = .next t) :
    (∃ p w i, x = .offer p w ∧ decode p w = .command i ∧ exec i s = .next t) ∨
    (∃ p w q, x = .reset p w ∧ s.sinkAt? p = some q ∧ q.undelivered = 0 ∧ t = s.resetAt p) ∨
    (∃ p w q, x = .resetDuringOutput p w ∧ s.sinkAt? p = some q ∧ t = s.resetAt p) ∨
    (∃ p q, x = .transfer p ∧ s.sinkAt? p = some q ∧ t = s.onSinkAt p SinkPort.transfer) ∨
    (∃ p r q, x = .sinkReady p r ∧ s.sinkAt? p = some q ∧ t = s.onSinkAt p (SinkPort.setReady r)) := by
  cases x with
  | offer p w =>
    simp only [perform, offerCommand, acceptCommand] at h
    split at h
    · cases h
    · split at h
      · rename_i i hd
        exact .inl ⟨p, w, i, rfl, hd, h⟩
      · cases h
  | reset p w =>
    obtain ⟨q, hq, hu, rfl⟩ := resetStep_next h
    exact .inr (.inl ⟨p, w, q, rfl, hq, hu, rfl⟩)
  | resetDuringOutput p w =>
    obtain ⟨q, hq, rfl⟩ := atPort_next h
    exact .inr (.inr (.inl ⟨p, w, q, rfl, hq, rfl⟩))
  | transfer p =>
    obtain ⟨q, hq, rfl⟩ := atPort_next h
    exact .inr (.inr (.inr (.inl ⟨p, q, rfl, hq, rfl⟩)))
  | sinkReady p r =>
    obtain ⟨q, hq, rfl⟩ := atPort_next h
    exact .inr (.inr (.inr (.inr ⟨p, r, q, rfl, hq, rfl⟩)))

/-- Everything a step can do when it answers a next state: every input waits and every sink has an output cycle, or one input
happens that does not wait, those before it all waiting; `perform_cases` says what it does. -/
theorem step_cases {s t : State} (h : step s = .next t) :
    (s.nextInput? [] s.inputs = none ∧ (∀ x ∈ s.inputs, s.busyAt x.port = true ∧ x.hostPort? = some x.port) ∧
      t = s.transferAll) ∨
    (∃ pre x post, s.inputs = pre ++ x :: post ∧ s.nextInput? [] s.inputs = some (x, pre ++ post) ∧
      (∀ y ∈ pre, s.busyAt y.port = true ∧ y.hostPort? = some y.port) ∧
      s.waits (pre.map Input.port).reverse x = false ∧ perform x (s.setInputs (pre ++ post)) = .next t) := by
  rcases State.nextInput?_cases (s := s) [] s.inputs (by simp) with ⟨hn, ha⟩ | ⟨pre, x, post, hi, hn, ha, hx⟩
  · rw [step_no_input hn, Host.Outcome.next.injEq] at h
    exact .inl ⟨hn, ha, h.symm⟩
  · rw [step_of_nextInput hn] at h
    exact .inr ⟨pre, x, post, hi, hn, ha, by simpa using hx, h⟩

end Sys2Proof.Machine
end

