-- ==== Sys2Proof/Laws/PerInstr.lean ====
section
/-! SUPPORT. Laws/PerInstr.lean: one lemma per constructor of `Instr`, for each family of LAWS.json. -/

namespace Sys2Proof.Laws.EncodedAsTable

/-- The command's word agrees with the match and mask of its row of the opcode table, and is given on its own port (R57,
R58). -/
def Statement (i : Instr) : Prop :=
  (encode i).2 &&& (tableRow i).2 = (tableRow i).1 ∧ (encode i).1 = i.port

theorem encIngest (k : Nat) (b : Byte) : Statement (.encIngest k b) := by
  refine ⟨?_, rfl⟩
  simp only [encode, tableRow, cmdWord]
  revert b; decide

theorem encFlush (k : Nat) : Statement (.encFlush k) := ⟨by simp [encode, tableRow, cmdWord], rfl⟩

theorem decIngest (k : Nat) (b : Byte) : Statement (.decIngest k b) := by
  refine ⟨?_, rfl⟩
  simp only [encode, tableRow, cmdWord]
  revert b; decide

end Sys2Proof.Laws.EncodedAsTable
end

