-- ==== Sys2Proof/Tests/Slice0.lean ====
section
/-! SUPPORT. Tests/Slice0.lean: small tests against spec/95_test_vectors.md and the tables of spec/30_encoding.md, the
WellFormed smoke, and one witness per statement that has hypotheses. -/

namespace Sys2Proof.Tests

open Sys2Proof.Machine

/-! ### WellFormed: each check refuses an ill-formed term -/

theorem test_wf_accepts : (Instr.encIngest 0 0x41#8).wf ⟨1, 1⟩ = true ∧ (Instr.decIngest 0 0xFA#8).wf ⟨1, 1⟩ = true := by
  decide

theorem test_wf_refuses_missing_enc : (Instr.encIngest 1 0x41#8).wf ⟨1, 5⟩ = false ∧ (Instr.encFlush 1).wf ⟨1, 5⟩ = false := by
  decide

theorem test_wf_refuses_missing_dec : (Instr.decIngest 1 0x41#8).wf ⟨5, 1⟩ = false := by decide

/-! ### Words, written out bit by bit from R55, R57, R58 (95_test_vectors.md 2.1) -/

/-- R57: op 0b00, data 0x41 ('A', R71). -/
theorem test_decode_enc_ingest : decode (.enc 0) 0b0001000001#10 = .command (.encIngest 0 0x41#8) := by decide

/-- R57: op 0b01, data 0x00. -/
theorem test_decode_enc_flush : decode (.enc 2) 0b0100000000#10 = .command (.encFlush 2) := by decide

/-- R58: op 0b00, data 0xFA: the word that is ENC_INGEST on an ENC port (R56). -/
theorem test_decode_dec_ingest : decode (.dec 1) 0b0011111010#10 = .command (.decIngest 1 0xFA#8) := by decide

/-- R57: op 0b01 with data other than 0x00 is reserved, and so are op 0b10 and op 0b11. -/
theorem test_decode_enc_reserved :
    decode (.enc 0) 0b0100000001#10 = .reserved (.enc 0) 0x101#10 ∧
    decode (.enc 0) 0b1000000000#10 = .reserved (.enc 0) 0x200#10 ∧
    decode (.enc 0) 0b1111111111#10 = .reserved (.enc 0) 0x3FF#10 := by decide

/-- R58: the decoder has no flush. -/
theorem test_decode_dec_reserved :
    decode (.dec 0) 0b0100000000#10 = .reserved (.dec 0) 0x100#10 ∧
    decode (.dec 0) 0b1010101011#10 = .reserved (.dec 0) 0x2AB#10 := by decide

/-- R71: the words of the examples. -/
theorem test_encode_words :
    encode (.encIngest 0 0xFA#8) = (.enc 0, 0x0FA#10) ∧ encode (.encFlush 0) = (.enc 0, 0x100#10) ∧
    encode (.decIngest 3 0x04#8) = (.dec 3, 0x004#10) := by decide

/-- The table's words for the host: 0x041 and 0x100 on the first ENC port; a value of more than ten bits is none. -/
theorem test_decode_table_word :
    decodeTableWord 16 0x041 = some (.encIngest 0 0x41#8) ∧ decodeTableWord 16 0x100 = some (.encFlush 0) ∧
    decodeTableWord 16 0x101 = none ∧ decodeTableWord 16 0x400 = none := by decide

/-- P1 of 95_test_vectors.md: its lines assemble to `041 041 0FA 100` (shortened). -/
theorem test_assemble :
    assemble (.enc 0) [.encIngest (.char 'A'), .encIngest (.hex 0x41#8), .encIngest (.hex 0xFA#8), .encFlush] =
      some [0x041#10, 0x041#10, 0x0FA#10, 0x100#10] := by decide

/-- R27: the 2-bit codes of the phases, 0b11 being none. -/
theorem test_phase_codes :
    Phase.code .normal = 0b00#2 ∧ Phase.code .sawEscape = 0b01#2 ∧ Phase.code .sawEscapeAndByte = 0b10#2 ∧
    Phase.ofCode? 0b10#2 = some .sawEscapeAndByte ∧ Phase.ofCode? 0b11#2 = none := by decide

/-! ### Single steps of the commands -/

/-- One ENC with `pendingByte = p`, `runLength = n`, and one DEC after reset; nothing emitted. -/
def encState (esc p n : Byte) : State :=
  { encs := [{ esc := esc, pending := .write p, runLength := n, sink := .launch }],
    decs := [DecInst.launch esc], inputs := [] }

/-- One ENC after reset, and one DEC in phase `ph` with `pendingByte = p`; nothing emitted. -/
def decState (esc : Byte) (ph : Phase) (p : Byte) : State :=
  { encs := [EncInst.launch esc],
    decs := [{ esc := esc, phase := ph, pending := .write p, sink := .launch }], inputs := [] }

/-- Output, `pendingByte` and `runLength` of the first ENC after an outcome. -/
def encResult (o : Host.Outcome State Fault Refusal) : Option (List Byte × Option Byte × Byte) :=
  match o with
  | .next t => t.encs[0]?.map fun e => (e.sink.out, e.pending.read?, e.runLength)
  | .fault _ => none
  | .refused _ => none

/-- Output, phase and `pendingByte` of the first DEC after an outcome. -/
def decResult (o : Host.Outcome State Fault Refusal) : Option (List Byte × Phase × Option Byte) :=
  match o with
  | .next t => t.decs[0]?.map fun d => (d.sink.out, d.phase, d.pending.read?)
  | .fault _ => none
  | .refused _ => none

/-- E6: the 255th byte of a run is framed at once. -/
theorem test_enc_ingest_at_255 :
    encResult (exec (.encIngest 0 0x41#8) (encState 0xFA#8 0x41#8 254#8)) =
      some ([0xFA#8, 0x41#8, 0xFF#8], some 0x41#8, 0#8) := by decide

/-- E11: a run of 4 ends and is framed; the escape byte starts a run. -/
theorem test_enc_ingest_ends_run :
    encResult (exec (.encIngest 0 0xFA#8) (encState 0xFA#8 0x41#8 4#8)) =
      some ([0xFA#8, 0x41#8, 0x04#8], some 0xFA#8, 1#8) := by decide

/-- F5: a run of 3 is literal. -/
theorem test_enc_flush_literal :
    encResult (exec (.encFlush 0) (encState 0xFA#8 0x41#8 3#8)) = some ([0x41#8, 0x41#8, 0x41#8], some 0x41#8, 0#8) := by
  decide

/-- F13: with ESC = 0x00 a single 0x00 is framed. -/
theorem test_enc_flush_escape :
    encResult (exec (.encFlush 0) (encState 0x00#8 0x00#8 1#8)) = some ([0x00#8, 0x00#8, 0x01#8], some 0x00#8, 0#8) := by
  decide

/-- D7: the count byte 0x04. -/
theorem test_dec_ingest_count :
    decResult (exec (.decIngest 0 0x04#8) (decState 0xFA#8 .sawEscapeAndByte 0x41#8)) =
      some ([0x41#8, 0x41#8, 0x41#8, 0x41#8], .normal, some 0x41#8) := by decide

/-- D6: the escape byte as run byte. -/
theorem test_dec_ingest_run_byte :
    decResult (exec (.decIngest 0 0xFA#8) (decState 0xFA#8 .sawEscape 0x41#8)) =
      some ([], .sawEscapeAndByte, some 0xFA#8) := by decide

/-- P7: the word 0x101 on an ENC port is refused, by port and word. -/
theorem test_reserved_word_refused :
    step ((encState 0xFA#8 0x41#8 1#8).setInputs [.offer (.enc 0) 0x101#10]) =
      .refused (.reservedCommand (.enc 0) 0x101#10) := rfl

/-- R115, R130: a reset discards the open run, and the flush offered with it is not run. -/
theorem test_reset_beats_flush :
    encResult (step ((encState 0xFA#8 0x41#8 5#8).setInputs [.reset (.enc 0) (some 0x100#10)])) = some ([], none, 0#8) := by
  decide

/-- The host's word is the first thing the machine runs after reset. -/
theorem test_with_fetch_word :
    encResult (step (State.reset.withFetchWord 16 0x041)) = some ([], some 0x41#8, 1#8) := by decide

/-- 95_test_vectors.md 2.5, row "mixed" shortened: `F9×4 FA FB×2`. -/
theorem test_encode_stream :
    encodeStream 0xFA#8 [0xF9#8, 0xF9#8, 0xF9#8, 0xF9#8, 0xFA#8, 0xFB#8, 0xFB#8] =
      [0xFA#8, 0xF9#8, 0x04#8, 0xFA#8, 0xFA#8, 0x01#8, 0xFB#8, 0xFB#8] := by decide

/-- S12 of 95_test_vectors.md. -/
theorem test_decode_stream :
    decodeStream 0xFA#8 [0xFA#8, 0x41#8, 0x04#8, 0xFA#8, 0xFA#8, 0x01#8] =
      [0x41#8, 0x41#8, 0x41#8, 0x41#8, 0xFA#8] := by decide

/-! ### Witnesses: for each statement with hypotheses, states and operands that meet all of them -/

/-- An output port with two bytes emitted and `u` of them waiting. -/
def waitingSink (u : Nat) (r : Bool) : SinkPort := { out := [0x41#8, 0x42#8], undelivered := u, ready := r }

/-- One ENC and one DEC, both with such a port. -/
def waitingState (u : Nat) (r : Bool) (is : List Input) : State :=
  { encs := [{ EncInst.launch 0xFA#8 with sink := waitingSink u r }],
    decs := [{ DecInst.launch 0xFA#8 with sink := waitingSink u r }], inputs := is }

/-- A decoder in phase SawEscapeAndByte whose `pendingByte` holds no value, which no run reaches. -/
def unheldDec : DecInst := { DecInst.launch 0xFA#8 with phase := .sawEscapeAndByte }

/-- A platform of that decoder alone. -/
def unheldState : State := { encs := [], decs := [unheldDec], inputs := [] }

theorem witness_EncodeDecodeAgree :
    decode (.enc 0) 0x0FF#10 = .command (.encIngest 0 0xFF#8) ∧ decode (.enc 0) 0x100#10 = .command (.encFlush 0) ∧
    decode (.dec 0) 0x000#10 = .command (.decIngest 0 0x00#8) ∧ encode (.encFlush 7) = encode (.encFlush 7) := by decide

theorem witness_StepRunsDecodedCommand :
    let s := (encState 0xFA#8 0x41#8 1#8).setInputs [.offer (.enc 0) 0x0FF#10]
    s.inputs = .offer (.enc 0) 0x0FF#10 :: [] ∧ s.sinkAt? (.enc 0) = some SinkPort.launch ∧
    SinkPort.launch.undelivered = 0 ∧ decode (.enc 0) 0x0FF#10 = .command (.encIngest 0 0xFF#8) := by decide

theorem witness_ReservedWordIsRefused :
    State.reset.sinkAt? (.enc 0) = some SinkPort.launch ∧ State.reset.sinkAt? (.dec 0) = some SinkPort.launch ∧
    SinkPort.launch.undelivered = 0 ∧
    (∀ w ∈ [0x101#10, 0x3FF#10], w &&& 0x300#10 ≠ 0x000#10 ∧ w ≠ 0x100#10) ∧
    (∀ w ∈ [0x100#10, 0x3FF#10], w &&& 0x300#10 ≠ 0x000#10) := by decide

theorem witness_BusyPortHoldsOffer :
    ∀ r ∈ [true, false], ∀ p ∈ [Port.enc 0, Port.dec 0],
      (waitingState 1 r [.offer p 0x041#10]).sinkAt? p = some (waitingSink 1 r) ∧ (waitingSink 1 r).undelivered ≠ 0 ∧
      ∃ t, step (waitingState 1 r [.offer p 0x041#10, .transfer p]) = .next t := by
  intro r hr p hp
  simp only [List.mem_cons, List.not_mem_nil, or_false] at hr hp
  rcases hr with rfl | rfl <;> rcases hp with rfl | rfl <;> exact ⟨by decide, by decide, _, rfl⟩

theorem witness_WaitEndsWhenOutputDelivered :
    ∀ u ∈ [0, 2], (waitingState u true [.offer (.enc 0) 0x041#10]).sinkAt? (.enc 0) = some (waitingSink u true) ∧
      (waitingSink u true).ready = true ∧ (.sinkReady (.enc 0) false) ∉ [Input.sinkReady (.dec 0) false] ∧
      ∃ t, runSteps (1 + u) (waitingState u true [.offer (.enc 0) 0x041#10, .sinkReady (.dec 0) false]) = .next t := by
  intro u hu
  simp only [List.mem_cons, List.not_mem_nil, or_false] at hu
  rcases hu with rfl | rfl <;> exact ⟨by decide, by decide, by decide, _, rfl⟩

/-- A word waits at the DEC instance, whose sink is not ready, and the host of the ENC instance goes on. -/
theorem witness_StalledSinkHangs :
    (waitingState 2 false [.offer (.dec 0) 0x041#10]).sinkAt? (.dec 0) = some (waitingSink 2 false) ∧
    (waitingSink 2 false).undelivered ≠ 0 ∧ (waitingSink 2 false).ready = false ∧
    (.sinkReady (.dec 0) true) ∉ [Input.sinkReady (.enc 0) true, .transfer (.enc 0)] ∧
    ∃ t, runSteps 3 (waitingState 2 false
      [.offer (.dec 0) 0x041#10, .sinkReady (.enc 0) true, .transfer (.enc 0)]) = .next t :=
  ⟨by decide, by decide, by decide, by decide, _, rfl⟩

theorem witness_HangIsLocal :
    (waitingState 2 false [.offer (.dec 0) 0x041#10]).sinkAt? (.dec 0) = some (waitingSink 2 false) ∧
    (waitingSink 2 false).undelivered ≠ 0 ∧ (waitingSink 2 false).ready = false ∧
    (.sinkReady (.dec 0) true) ∉ [Input.reset (.dec 0) none, .sinkReady (.enc 0) true] := by decide

/-- R115: a word waits at the DEC instance behind a stalled sink, and the ENC instance still accepts its command. -/
theorem test_stall_holds_up_no_other_instance :
    encResult (step { encs := [EncInst.launch 0xFA#8],
                      decs := [{ DecInst.launch 0xFA#8 with sink := waitingSink 2 false }],
                      inputs := [.offer (.dec 0) 0x041#10, .offer (.enc 0) 0x042#10] }) =
      some ([], some 0x42#8, 1#8) := by decide

theorem witness_EventsOfInstancesCommute :
    (Input.offer (.enc 0) 0x041#10).port ≠ (Input.transfer (.dec 0)).port ∧
    (waitingState 0 true []).waits [] (.offer (.enc 0) 0x041#10) = false ∧
    (waitingState 0 true []).waits [] (.transfer (.dec 0)) = false ∧
    ∃ t, runSteps 2 ((waitingState 0 true []).setInputs [.offer (.enc 0) 0x041#10, .transfer (.dec 0)]) = .next t :=
  ⟨by decide, by decide, by decide, _, rfl⟩

theorem witness_EveryByteIsDelivered :
    (waitingState 2 true []).Inv ∧ (waitingState 2 true []).inputs = [] ∧ (waitingState 2 true []).AllReady ∧
    ∀ p ∈ [Port.enc 0, Port.dec 0], (waitingState 2 true []).sinkAt? p = some (waitingSink 2 true) := by decide

/-- The run of the ENC instance has ended while the host of the DEC instance still has a word and a sink still moves. -/
theorem witness_EndedRunKeepsObservation :
    let s := waitingState 0 true [.transfer (.dec 0), .offer (.dec 0) 0x041#10]
    s.Observed (.enc 0) ⟨[0x41#8, 0x42#8], .enc none 0#8⟩ ∧ ¬ s.ResetNext (.enc 0) ∧ ∃ t, step s = .next t :=
  ⟨⟨⟨by decide, waitingSink 0 true, by decide, by decide⟩, by decide, by decide⟩, by decide, _, rfl⟩

/-- The run of an instance whose host still holds a word, or whose last byte waits, has not ended (R128). -/
theorem test_run_not_ended :
    ¬ (waitingState 0 true [.offer (.enc 0) 0x100#10]).RunEnded (.enc 0) ∧ ¬ (waitingState 1 true []).RunEnded (.enc 0) := by
  constructor
  · intro h
    exact absurd (h.1 _ (List.mem_singleton.mpr rfl)) (by decide)
  · rintro ⟨-, q, hq, hu⟩
    cases hq
    exact absurd hu (by decide)

theorem witness_IdleMachineHoldsState : State.reset.inputs = [] ∧ State.reset.AllDelivered := by decide

/-- Steps that do not drive an instance: an output cycle and a ready line at its own sink, a word that waits on its port, and
a reset and an accepted word at the other instance. -/
theorem witness_NothingEmittedWithoutCommand :
    (∀ x ∈ [Input.transfer (.enc 0), .sinkReady (.enc 0) false, .offer (.enc 0) 0x041#10, .resetDuringOutput (.dec 0) none],
      ∃ t, step (waitingState 1 true [x]) = .next t ∧ ¬ (waitingState 1 true [x]).DrivenNext (.enc 0)) ∧
    (∃ t, step (waitingState 0 true [.offer (.dec 0) 0x041#10]) = .next t ∧
      ¬ (waitingState 0 true [.offer (.dec 0) 0x041#10]).DrivenNext (.enc 0)) ∧
    (decState 0xFA#8 .sawEscapeAndByte 0x41#8).inputs = [] ∧ (encState 0xFA#8 0x41#8 254#8).inputs = [] := by
  refine ⟨?_, ⟨_, rfl, by decide⟩, rfl, rfl⟩
  intro x hx
  simp only [List.mem_cons, List.not_mem_nil, or_false] at hx
  rcases hx with rfl | rfl | rfl | rfl <;> exact ⟨_, rfl, by decide⟩

theorem witness_TransferMovesOldestByte :
    ∀ u ∈ [0, 1, 2], ∀ r ∈ [true, false],
      (waitingState u r [.transfer (.enc 0)]).sinkAt? (.enc 0) = some (waitingSink u r) ∧
      (waitingSink u r).undelivered ≤ (waitingSink u r).out.length := by decide

theorem witness_ReadyLineChangesAlone :
    ∀ p ∈ [Port.enc 0, Port.dec 0], (waitingState 1 true [.sinkReady p false]).sinkAt? p = some (waitingSink 1 true) := by
  decide

theorem witness_MissingPortIsRefused :
    (Instr.encIngest 1 0x41#8).wf State.reset.platform = false ∧ (Instr.encFlush 1).wf State.reset.platform = false ∧
    (Instr.decIngest 1 0x41#8).wf State.reset.platform = false := by decide

/-- Each row of R78's table: `n` at 0, 1, 3, 4, 253, 254, `p` equal to ESC or not, `b` equal to `p` or not. -/
theorem witness_EncIngestTransitions :
    ∀ n ∈ [0#8, 1#8, 3#8, 4#8, 253#8, 254#8], ∀ p ∈ [0x41#8, 0xFA#8],
      ∃ e : EncInst, (encState 0xFA#8 p n).encs[0]? = some e ∧ e.Held ∧ e.runLength.toNat ≤ 254 ∧ e.runLength = n ∧
        e.pending.byte = p := by
  intro n hn p _
  refine ⟨_, rfl, fun _ => rfl, ?_, rfl, rfl⟩
  change n.toNat ≤ 254
  revert n; decide

/-- Each row of R75's table: `n` at 0, 1, 3, 4, 255, `p` equal to ESC or not. -/
theorem witness_EncFlushOutputTable :
    ∀ n ∈ [0#8, 1#8, 3#8, 4#8, 255#8], ∀ p ∈ [0x41#8, 0xFA#8],
      ∃ e : EncInst, (encState 0xFA#8 p n).encs[0]? = some e ∧ e.Held ∧ e.runLength = n ∧ e.pending.byte = p :=
  fun _ _ _ _ => ⟨_, rfl, fun _ => rfl, rfl, rfl⟩

theorem witness_SecondFlushDoesNothing : ∃ t, exec (.encFlush 0) (encState 0xFA#8 0x41#8 4#8) = .next t := ⟨_, rfl⟩

theorem witness_EncIngestOutputLength :
    ∀ n ∈ [0#8, 1#8, 2#8, 3#8, 4#8, 254#8],
      ∃ e : EncInst, (encState 0xFA#8 0x41#8 n).encs[0]? = some e ∧ e.Held ∧ e.runLength.toNat ≤ 254 ∧ e.runLength = n := by
  intro n hn
  refine ⟨_, rfl, fun _ => rfl, ?_, rfl⟩
  change n.toNat ≤ 254
  revert n; decide

theorem witness_RunClosesAt255 :
    State.reset.encs[0]? = some (EncInst.launch 0xFA#8) ∧ (EncInst.launch 0xFA#8).runLength = 0#8 ∧
    ∀ n ∈ [1, 254, 255], 1 ≤ n ∧ n ≤ 255 := by decide

theorem witness_RunEncodesAsSegment :
    State.reset.encs[0]? = some (EncInst.launch 0xFA#8) ∧ (EncInst.launch 0xFA#8).runLength = 0#8 ∧
    (∀ n ∈ [1, 3, 4, 255], 1 ≤ n ∧ n ≤ 255) ∧ 0x41#8 ≠ (EncInst.launch 0xFA#8).esc ∧
    0xFA#8 = (EncInst.launch 0xFA#8).esc := by decide

theorem witness_LongRunSplitsAt255 :
    State.reset.encs[0]? = some (EncInst.launch 0xFA#8) ∧ (EncInst.launch 0xFA#8).runLength = 0#8 := by decide

theorem witness_EncCommandEmitsWholeItem :
    ∃ (t : State) (e e' : EncInst), (encState 0xFA#8 0x41#8 254#8).encs[0]? = some e ∧ e.Inv ∧
      exec (.encIngest 0 0x41#8) (encState 0xFA#8 0x41#8 254#8) = .next t ∧ t.encs[0]? = some e' :=
  ⟨_, _, _, rfl, by decide, rfl, rfl⟩

theorem witness_EncCommandEmitsWholeItem_flush :
    ∃ (t : State) (e e' : EncInst), (encState 0xFA#8 0x41#8 3#8).encs[0]? = some e ∧ e.Inv ∧
      exec (.encFlush 0) (encState 0xFA#8 0x41#8 3#8) = .next t ∧ t.encs[0]? = some e' :=
  ⟨_, _, _, rfl, by decide, rfl, rfl⟩

theorem witness_EncoderMeetsClosedForm :
    (encState 0x00#8 0x41#8 0#8).encs[0]? = some ⟨0x00#8, .write 0x41#8, 0#8, .launch⟩ := by decide

theorem witness_EncodedSizeBound :
    State.reset.encs[0]? = some (EncInst.launch 0xFA#8) ∧ (EncInst.launch 0xFA#8).runLength = 0#8 ∧
    [0xFA#8] = [(EncInst.launch 0xFA#8).esc] := by decide

/-- Each row of R91's table, and the count 0 with no captured byte. -/
theorem witness_DecIngestTransitions :
    (∀ ph ∈ [Phase.normal, .sawEscape, .sawEscapeAndByte],
      ∃ d : DecInst, (decState 0xFA#8 ph 0x41#8).decs[0]? = some d ∧ d.pending.written = true ∧ d.phase = ph) ∧
    (unheldState.decs[0]? = some unheldDec ∧
      (unheldDec.phase = .sawEscapeAndByte → 0x00#8 ≠ 0#8 → unheldDec.pending.written = true)) :=
  ⟨fun _ _ => ⟨_, rfl, rfl, rfl⟩, by decide⟩

/-- A suspended decoder, and a step of its own sink and one of the other instance's host. -/
theorem witness_TruncatedFrameSuspends :
    State.reset.decs[0]? = some (DecInst.launch 0xFA#8) ∧ (DecInst.launch 0xFA#8).phase = .normal ∧
    (∃ d : DecInst, (decState 0xFA#8 .sawEscape 0x41#8).decs[0]? = some d ∧ d.phase ≠ .normal) ∧
    ∀ x ∈ [Input.transfer (.dec 0), .offer (.enc 0) 0x041#10],
      let s := (decState 0xFA#8 .sawEscape 0x41#8).setInputs [x]
      (∀ (m : Nat) (u : State), m < 1 → runSteps m s = .next u → ¬ u.DrivenNext (.dec 0)) ∧
      ∃ t, runSteps 1 s = .next t := by
  refine ⟨by decide, rfl, ⟨_, rfl, by decide⟩, ?_⟩
  intro x hx
  simp only [List.mem_cons, List.not_mem_nil, or_false] at hx
  rcases hx with rfl | rfl <;> refine ⟨?_, _, rfl⟩ <;> intro m u hm hr <;> obtain rfl : m = 0 := by omega
  all_goals
    cases hr
    decide

theorem witness_FrameDecodesToRun :
    State.reset.decs[0]? = some (DecInst.launch 0xFA#8) ∧ (DecInst.launch 0xFA#8).phase = .normal := by decide

theorem witness_DecIngestOutputLength :
    (∀ ph ∈ [Phase.normal, .sawEscape, .sawEscapeAndByte],
      ∃ d : DecInst, (decState 0xFA#8 ph 0x41#8).decs[0]? = some d ∧ d.pending.written = true ∧ d.phase = ph) ∧
    (unheldState.decs[0]? = some unheldDec ∧
      (unheldDec.phase = .sawEscapeAndByte → 0x00#8 ≠ 0#8 → unheldDec.pending.written = true)) :=
  ⟨fun _ _ => ⟨_, rfl, rfl, rfl⟩, by decide⟩

theorem witness_DecoderMeetsRecursion :
    ∀ ph ∈ [Phase.normal, .sawEscape, .sawEscapeAndByte],
      ∃ d : DecInst, (decState 0xFA#8 ph 0x41#8).decs[0]? = some d ∧ d.Held ∧ d.phase = ph :=
  fun _ _ => ⟨_, rfl, fun _ => rfl, rfl⟩

theorem witness_DecoderRestsAtItemBoundaries :
    State.reset.decs[0]? = some (DecInst.launch 0xFA#8) ∧ (DecInst.launch 0xFA#8).phase = .normal ∧
    ∀ it ∈ [Item.lit 0x41#8 1, .lit 0x41#8 3, .frame 0x41#8 4, .frame 0x41#8 255, .frame 0xFA#8 1],
      it.legal (DecInst.launch 0xFA#8).esc = true := by decide

theorem witness_RoundTrip :
    State.reset.encs[0]? = some (EncInst.launch 0xFA#8) ∧ State.reset.decs[0]? = some (DecInst.launch 0xFA#8) ∧
    (EncInst.launch 0xFA#8).runLength = 0#8 ∧ (DecInst.launch 0xFA#8).phase = .normal ∧
    (DecInst.launch 0xFA#8).esc = (EncInst.launch 0xFA#8).esc := by decide

theorem witness_StreamingPrefix :
    State.reset.encs[0]? = some (EncInst.launch 0xFA#8) ∧ State.reset.decs[0]? = some (DecInst.launch 0xFA#8) ∧
    (EncInst.launch 0xFA#8).runLength = 0#8 ∧ (DecInst.launch 0xFA#8).phase = .normal ∧
    (DecInst.launch 0xFA#8).esc = (EncInst.launch 0xFA#8).esc ∧
    (∀ i ∈ [Instr.encIngest 0 0x41#8, .encFlush 0], i.port = .enc 0) ∧
    [Instr.encIngest 0 0x41#8, .encFlush 0].getLast? = some (.encFlush 0) := by decide

theorem witness_EncIngestFrame : ∃ t, exec (.encIngest 0 0x42#8) (encState 0xFA#8 0x41#8 4#8) = .next t := ⟨_, rfl⟩

theorem witness_EncFlushFrame : ∃ t, exec (.encFlush 0) (encState 0xFA#8 0x41#8 4#8) = .next t := ⟨_, rfl⟩

theorem witness_DecIngestFrame :
    ∃ t, exec (.decIngest 0 0x02#8) (decState 0xFA#8 .sawEscapeAndByte 0x41#8) = .next t := ⟨_, rfl⟩

theorem witness_InstancesCommute :
    (Instr.encFlush 0).port ≠ (Instr.decIngest 0 0x42#8).port ∧
    ∃ t u, exec (.encFlush 0) (encState 0xFA#8 0x41#8 4#8) = .next t ∧ exec (.decIngest 0 0x42#8) t = .next u :=
  ⟨by decide, _, _, rfl, rfl⟩

theorem witness_EncoderDependsOnItselfOnly :
    State.reset.encs[0]? = (decState 0xFA#8 .sawEscape 0x41#8).encs[0]? ∧
    (∀ i ∈ [Instr.encIngest 0 0x41#8], i.port = .enc 0) ∧
    ∃ t, execAll [.encIngest 0 0x41#8] State.reset = .next t := ⟨by decide, by decide, _, rfl⟩

theorem witness_DecoderDependsOnItselfOnly :
    State.reset.decs[0]? = (encState 0xFA#8 0x41#8 4#8).decs[0]? ∧
    (∀ i ∈ [Instr.decIngest 0 0x41#8], i.port = .dec 0) ∧
    ∃ t, execAll [.decIngest 0 0x41#8] State.reset = .next t := ⟨by decide, by decide, _, rfl⟩

theorem witness_StaleByteIsUnobservable :
    (encState 0xFA#8 0x41#8 0#8).masked = (encState 0xFA#8 0x42#8 0#8).masked ∧
    (decState 0xFA#8 .sawEscape 0x41#8).masked = (decState 0xFA#8 .sawEscape 0x42#8).masked := by decide

theorem witness_StepKeepsInvariant :
    (waitingState 2 true [.offer (.enc 0) 0x041#10]).Inv ∧
    ∃ t, step (waitingState 2 true [.offer (.enc 0) 0x041#10]) = .next t := ⟨by decide, _, rfl⟩

theorem witness_GoodStatesNeverFault : (encState 0xFA#8 0x41#8 254#8).Inv := by decide

/-- The three commands that fault, in states no run reaches, and the count 0, which reads nothing (R90, R113). -/
theorem witness_FaultExactlyOnMissingByte :
    let e : EncInst := { EncInst.launch 0xFA#8 with runLength := 3#8 }
    let d : DecInst := { DecInst.launch 0xFA#8 with phase := .sawEscapeAndByte }
    let s : State := { encs := [e], decs := [d], inputs := [] }
    exec (.encIngest 0 0x41#8) s = .fault .readUnwrittenPending ∧ exec (.encFlush 0) s = .fault .readUnwrittenPending ∧
    exec (.decIngest 0 0x41#8) s = .fault .readUnwrittenPending ∧
    decResult (exec (.decIngest 0 0x00#8) s) = some ([], .normal, none) := ⟨rfl, rfl, rfl, rfl⟩

theorem witness_EscapeByteNeverChanges :
    (∃ t, step (waitingState 0 true [.reset (.enc 0) none]) = .next t) ∧
    (∃ t, step (waitingState 2 true [.resetDuringOutput (.enc 0) none]) = .next t) ∧
    ∃ t, exec (.encFlush 0) (encState 0xFA#8 0x41#8 4#8) = .next t := ⟨⟨_, rfl⟩, ⟨_, rfl⟩, _, rfl⟩

theorem witness_DeliveredBytesStay :
    (∃ t, step (waitingState 1 true [.resetDuringOutput (.enc 0) none]) = .next t) ∧
    (waitingState 1 true [.resetDuringOutput (.enc 0) none]).sinkAt? (.enc 0) = some (waitingSink 1 true) :=
  ⟨⟨_, rfl⟩, by decide⟩

theorem witness_WorkPerCommand :
    ((∃ t, exec (.encFlush 0) (encState 0xFA#8 0x41#8 4#8) = .next t) ∧
      (encState 0xFA#8 0x41#8 4#8).sinkAt? (Instr.encFlush 0).port = some SinkPort.launch) ∧
    ((∃ t, exec (.decIngest 0 0x02#8) (decState 0xFA#8 .sawEscapeAndByte 0x41#8) = .next t) ∧
      (decState 0xFA#8 .sawEscapeAndByte 0x41#8).sinkAt? (Instr.decIngest 0 0x02#8).port = some SinkPort.launch) :=
  ⟨⟨⟨_, rfl⟩, by decide⟩, ⟨_, rfl⟩, by decide⟩

theorem witness_ResetValues :
    [0xFA#8, 0x00#8][1]? = some 0x00#8 ∧ (waitingState 0 true []).sinkAt? (.dec 0) = some (waitingSink 0 true) ∧
    (waitingSink 0 true).undelivered = 0 := by decide

theorem witness_ResetOfOneInstance :
    (waitingState 0 true [.reset (.enc 0) (some 0x100#10)]).encs[0]? =
      some { EncInst.launch 0xFA#8 with sink := waitingSink 0 true } ∧
    (waitingState 0 true [.reset (.dec 0) none]).decs[0]? =
      some { DecInst.launch 0xFA#8 with sink := waitingSink 0 true } ∧ (waitingSink 0 true).undelivered = 0 := by decide

theorem witness_ResetWhileBusyIsRefused :
    ∀ p ∈ [Port.enc 0, Port.dec 0], (waitingState 1 true [.reset p none]).sinkAt? p = some (waitingSink 1 true) ∧
      (waitingSink 1 true).undelivered ≠ 0 := by decide

/-- U6: no step for a reset while a byte waits. -/
theorem test_reset_while_busy_refused :
    step (waitingState 1 true [.reset (.enc 0) none]) = .refused (.resetWhileBusy (.enc 0)) := rfl

theorem witness_ResetDuringOutputDiscardsWaiting :
    (waitingState 1 true [.resetDuringOutput (.enc 0) (some 0x100#10)]).encs[0]? =
      some { EncInst.launch 0xFA#8 with sink := waitingSink 1 true } ∧
    (waitingState 1 true [.resetDuringOutput (.dec 0) none]).decs[0]? =
      some { DecInst.launch 0xFA#8 with sink := waitingSink 1 true } := by decide

/-- R115, R130: of two bytes the accepted one stays delivered and the waiting one is discarded. -/
theorem test_reset_during_output :
    encResult (step (waitingState 1 true [.resetDuringOutput (.enc 0) none])) = some ([0x41#8], none, 0#8) := by decide

theorem witness_StringStopsAtFirstZero : 0x00#8 ∉ [0x41#8, 0x42#8] := by decide

end Sys2Proof.Tests
end

section
/-! SUPPORT. A command whose instance the platform does not have (R13, R56). -/

namespace Sys2Proof.Machine

/-- The platform lacks an ENC port exactly when the lookup of its instance fails (R13). -/
theorem State.wf_enc_eq_false_iff {s : State} {k : Nat} :
    (Port.enc k).wf s.platform = false ↔ s.encs[k]? = none :=
  decide_eq_false_iff_not.trans (Nat.not_lt.trans List.getElem?_eq_none_iff.symm)

/-- The platform lacks a DEC port exactly when the lookup of its instance fails (R13). -/
theorem State.wf_dec_eq_false_iff {s : State} {j : Nat} :
    (Port.dec j).wf s.platform = false ↔ s.decs[j]? = none :=
  decide_eq_false_iff_not.trans (Nat.not_lt.trans List.getElem?_eq_none_iff.symm)

/-- `onEnc` on an instance that the platform does not have. -/
theorem onEnc_of_none {k : Nat} {s : State} (f : EncInst → Except Fault EncInst) (hk : s.encs[k]? = none) :
    onEnc k f s = .refused (.noSuchPort (.enc k)) := by
  simp [onEnc, hk]

/-- `onDec` on an instance that the platform does not have. -/
theorem onDec_of_none {j : Nat} {s : State} (f : DecInst → Except Fault DecInst) (hj : s.decs[j]? = none) :
    onDec j f s = .refused (.noSuchPort (.dec j)) := by
  simp [onDec, hj]

/-- Settles O18: each command is one transition of the instance on its port, and that transition is refused where the
lookup of the instance fails (log entry 3). -/
theorem missingPortIsRefused : Obligations.MissingPortIsRefused := by
  intro s i hwf
  cases i with
  | encIngest k b => exact onEnc_of_none (encIngestOn b) (State.wf_enc_eq_false_iff.mp hwf)
  | encFlush k => exact onEnc_of_none flushCore (State.wf_enc_eq_false_iff.mp hwf)
  | decIngest j b => exact onDec_of_none (decIngestOn b) (State.wf_dec_eq_false_iff.mp hwf)

end Sys2Proof.Machine
end

section
/-! SUPPORT. What a command does to the instance on its port and leaves unchanged elsewhere (R31, R34, R37). -/

namespace Sys2Proof.Machine

/-! ### The transition of one instance -/

/-- FlushCore keeps ESC and `pendingByte` and emits at most three bytes (R73, D8). -/
theorem flushCore_emits {e e' : EncInst} (h : flushCore e = .ok e') :
    ∃ vs : List Byte, vs.length ≤ 3 ∧ e'.esc = e.esc ∧ e'.pending = e.pending ∧ e'.sink = e.sink.emitAll vs := by
  obtain ⟨-, hf⟩ | ⟨-, -, hf⟩ | ⟨-, -, hf⟩ := flushCore_cases e
  all_goals simp only [hf, Except.ok.injEq, reduceCtorEq] at h
  · exact ⟨[], by simp [← h]⟩
  · exact ⟨flushBytes e.esc e.pending.byte e.runLength, flushBytes_length_le _ _ _, by simp [← h]⟩

/-- ENC_INGEST keeps ESC, emits at most three bytes, and keeps `pendingByte` unless it starts a run (R76, R77). -/
theorem encIngestOn_emits {b : Byte} {e e' : EncInst} (h : encIngestOn b e = .ok e') :
    ∃ vs : List Byte, vs.length ≤ 3 ∧ e'.esc = e.esc ∧ e'.sink = e.sink.emitAll vs ∧
      (e'.pending = e.pending ∨ (e'.pending = .write b ∧ e'.runLength = 1#8)) := by
  obtain ⟨-, hf⟩ | ⟨-, -, -, -, hf⟩ | ⟨-, -, -, -, hf⟩ | ⟨-, -, -, hf⟩ | ⟨-, -, hf⟩ := encIngestOn_cases b e
  all_goals simp only [hf, Except.ok.injEq, reduceCtorEq] at h
  · exact ⟨[], by simp [← h]⟩
  · exact ⟨[], by simp [← h]⟩
  · exact ⟨flushBytes e.esc e.pending.byte (e.runLength + 1#8), flushBytes_length_le _ _ _, by simp [← h]⟩
  · exact ⟨flushBytes e.esc e.pending.byte e.runLength, flushBytes_length_le _ _ _, by simp [← h]⟩

/-- DEC_INGEST keeps ESC, emits at most 255 bytes, and keeps the captured byte outside phase SawEscape (R28, R92). -/
theorem decIngestOn_emits {b : Byte} {d d' : DecInst} (h : decIngestOn b d = .ok d') :
    ∃ vs : List Byte, vs.length ≤ 255 ∧ d'.esc = d.esc ∧ d'.sink = d.sink.emitAll vs ∧
      (d.phase ≠ .sawEscape → d'.pending = d.pending) := by
  obtain ⟨-, -, hf⟩ | ⟨-, -, hf⟩ | ⟨hph, hf⟩ | ⟨-, -, hf⟩ | ⟨-, -, -, hf⟩ := decIngestOn_cases b d
  all_goals simp only [hf, Except.ok.injEq, reduceCtorEq] at h
  · exact ⟨[], by simp [← h]⟩
  · exact ⟨[b], by simp [← h]⟩
  · exact ⟨[], by simp [← h, hph]⟩
  · have hb : b.toNat ≤ 255 := Nat.le_of_lt_succ b.isLt
    exact ⟨List.replicate b.toNat d.pending.byte, by simpa using hb, by simp [← h]⟩

/-! ### The transition in the state -/

/-- What a transition of the `k`-th ENC instance leaves unchanged (R37). -/
theorem onEnc_frame {k : Nat} {f : EncInst → Except Fault EncInst} {s t : State} (h : onEnc k f s = .next t) :
    t.inputs = s.inputs ∧ t.decs = s.decs ∧ t.encs.length = s.encs.length ∧
    (∀ m, m ≠ k → t.encs[m]? = s.encs[m]?) ∧
    ∃ e e' : EncInst, s.encs[k]? = some e ∧ t.encs[k]? = some e' ∧ f e = .ok e' := by
  obtain ⟨e, e', hk, hf, rfl⟩ := onEnc_next h
  exact ⟨rfl, rfl, List.length_set, fun m hm => List.getElem?_set_ne hm.symm, e, e', hk, State.setEnc_getElem? hk, hf⟩

/-- What a transition of the `j`-th DEC instance leaves unchanged (R37). -/
theorem onDec_frame {j : Nat} {f : DecInst → Except Fault DecInst} {s t : State} (h : onDec j f s = .next t) :
    t.inputs = s.inputs ∧ t.encs = s.encs ∧ t.decs.length = s.decs.length ∧
    (∀ m, m ≠ j → t.decs[m]? = s.decs[m]?) ∧
    ∃ d d' : DecInst, s.decs[j]? = some d ∧ t.decs[j]? = some d' ∧ f d = .ok d' := by
  obtain ⟨d, d', hj, hf, rfl⟩ := onDec_next h
  exact ⟨rfl, rfl, List.length_set, fun m hm => List.getElem?_set_ne hm.symm, d, d', hj, State.setDec_getElem? hj, hf⟩

/-- An emission keeps the ready line, the bytes already in the stream and the delivered bytes (R34, R45). -/
theorem SinkPort.emitAll_frame (vs : List Byte) (q : SinkPort) :
    (q.emitAll vs).ready = q.ready ∧ q.out <+: (q.emitAll vs).out ∧ (q.emitAll vs).delivered = q.delivered :=
  ⟨rfl, List.prefix_append q.out vs, SinkPort.delivered_emitAll vs q⟩

/-- Settles O37: the transition is its instance's alone (`onEnc_frame`), and there ENC_INGEST only appends to the stream. -/
theorem encIngestFrame : Obligations.EncIngestFrame := by
  intro s t k b h
  obtain ⟨hin, hdecs, hlen, hoth, e, e', hk, hk', hf⟩ := onEnc_frame h
  obtain ⟨vs, -, hesc, hsink, hpend⟩ := encIngestOn_emits hf
  obtain ⟨hready, hout, hdel⟩ := SinkPort.emitAll_frame vs e.sink
  rw [← hsink] at hready hout hdel
  exact ⟨hin, hdecs, hlen, hoth, e, e', hk, hk', hesc, hready, hout, hdel, hpend⟩

/-- Settles O38: as for ENC_INGEST, and FlushCore never writes `pendingByte` (D8). -/
theorem encFlushFrame : Obligations.EncFlushFrame := by
  intro s t k h
  obtain ⟨hin, hdecs, hlen, hoth, e, e', hk, hk', hf⟩ := onEnc_frame h
  obtain ⟨vs, -, hesc, hpend, hsink⟩ := flushCore_emits hf
  obtain ⟨hready, hout, hdel⟩ := SinkPort.emitAll_frame vs e.sink
  rw [← hsink] at hready hout hdel
  exact ⟨hin, hdecs, hlen, hoth, e, e', hk, hk', hesc, hpend, hready, hout, hdel⟩

/-- Settles O39: the transition is its instance's alone (`onDec_frame`), and only phase SawEscape captures a byte (R28). -/
theorem decIngestFrame : Obligations.DecIngestFrame := by
  intro s t j b h
  obtain ⟨hin, hencs, hlen, hoth, d, d', hj, hj', hf⟩ := onDec_frame h
  obtain ⟨vs, -, hesc, hsink, hpend⟩ := decIngestOn_emits hf
  obtain ⟨hready, hout, hdel⟩ := SinkPort.emitAll_frame vs d.sink
  rw [← hsink] at hready hout hdel
  exact ⟨hin, hencs, hlen, hoth, d, d', hj, hj', hesc, hready, hout, hdel, hpend⟩

end Sys2Proof.Machine
end

section
/-! SUPPORT. What commands and steps do to every output port (R34, R45), and the values after reset (R35). -/

namespace Sys2Proof.Machine

/-- A field of the elements after a change of one of them that acts on the field as `g`. -/
theorem getElem?_modify_map {α β : Type} {π : α → β} {f : α → α} {g : β → β} (h : ∀ a, π (f a) = g (π a))
    (l : List α) (k m : Nat) :
    (l.modify k f)[m]?.map π = if k = m then (l[m]?.map π).map g else l[m]?.map π := by
  rw [List.getElem?_modify]
  split <;> simp [Function.comp_def, h]

/-- The ports after a change of one of them. -/
theorem State.sinkAt?_onSinkAt_eq (s : State) (p p' : Port) (f : SinkPort → SinkPort) :
    (s.onSinkAt p f).sinkAt? p' = if p = p' then (s.sinkAt? p').map f else s.sinkAt? p' := by
  cases p with
  | enc k => cases p' <;> simp [State.onSinkAt, State.sinkAt?, getElem?_modify_map (EncInst.onSink_sink · f)]
  | dec k => cases p' <;> simp [State.onSinkAt, State.sinkAt?, getElem?_modify_map (DecInst.onSink_sink · f)]

/-- The ports after a reset of one instance (R130, R133). -/
theorem State.sinkAt?_resetAt (s : State) (p p' : Port) :
    (s.resetAt p).sinkAt? p' = if p = p' then (s.sinkAt? p').map SinkPort.reset else s.sinkAt? p' := by
  cases p with
  | enc k => cases p' <;> simp [State.resetAt, State.sinkAt?, getElem?_modify_map EncInst.reset_sink]
  | dec k => cases p' <;> simp [State.resetAt, State.sinkAt?, getElem?_modify_map DecInst.reset_sink]

/-- After a change of one port every port is as it was, or is the changed one. -/
theorem State.sinkAt?_onSinkAt_cases {s : State} {p' : Port} {q : SinkPort} (hq : s.sinkAt? p' = some q) (p : Port)
    (f : SinkPort → SinkPort) :
    (s.onSinkAt p f).sinkAt? p' = some q ∨ (s.onSinkAt p f).sinkAt? p' = some (f q) := by
  rw [State.sinkAt?_onSinkAt_eq, hq]
  split
  · exact .inr rfl
  · exact .inl rfl

/-- After a reset of one instance every port is as it was, or is the reset one (R133). -/
theorem State.sinkAt?_resetAt_cases {s : State} {p' : Port} {q : SinkPort} (hq : s.sinkAt? p' = some q) (p : Port) :
    (s.resetAt p).sinkAt? p' = some q ∨ (s.resetAt p).sinkAt? p' = some q.reset := by
  rw [State.sinkAt?_resetAt, hq]
  split
  · exact .inr rfl
  · exact .inl rfl

/-- The ports after an output cycle of every sink (R118). -/
theorem State.sinkAt?_transferAll (s : State) (p : Port) :
    s.transferAll.sinkAt? p = (s.sinkAt? p).map SinkPort.transfer := by
  cases p <;> simp [State.sinkAt?, Function.comp_def]

/-- A transition of one ENC instance that only emits there appends to its port and leaves every other port alone. -/
theorem onEnc_sinkAt? {k : Nat} {f : EncInst → Except Fault EncInst} {s t : State} {p : Port} {q : SinkPort}
    (hf : ∀ e e', f e = .ok e' → ∃ vs, e'.sink = e.sink.emitAll vs) (h : onEnc k f s = .next t)
    (hq : s.sinkAt? p = some q) : ∃ vs, t.sinkAt? p = some (q.emitAll vs) := by
  obtain ⟨-, hdecs, -, hoth, e, e', hk, hk', he⟩ := onEnc_frame h
  obtain ⟨vs, hsink⟩ := hf e e' he
  cases p with
  | enc m =>
    by_cases hm : m = k
    · subst hm
      simp only [State.sinkAt?, hk, Option.map_some, Option.some.injEq] at hq
      exact ⟨vs, by simp [State.sinkAt?, hk', hsink, hq]⟩
    · exact ⟨[], by simpa [State.sinkAt?, hoth m hm] using hq⟩
  | dec m => exact ⟨[], by simpa [State.sinkAt?, hdecs] using hq⟩

/-- A transition of one DEC instance that only emits there appends to its port and leaves every other port alone. -/
theorem onDec_sinkAt? {j : Nat} {f : DecInst → Except Fault DecInst} {s t : State} {p : Port} {q : SinkPort}
    (hf : ∀ d d', f d = .ok d' → ∃ vs, d'.sink = d.sink.emitAll vs) (h : onDec j f s = .next t)
    (hq : s.sinkAt? p = some q) : ∃ vs, t.sinkAt? p = some (q.emitAll vs) := by
  obtain ⟨-, hencs, -, hoth, d, d', hj, hj', hd⟩ := onDec_frame h
  obtain ⟨vs, hsink⟩ := hf d d' hd
  cases p with
  | enc m => exact ⟨[], by simpa [State.sinkAt?, hencs] using hq⟩
  | dec m =>
    by_cases hm : m = j
    · subst hm
      simp only [State.sinkAt?, hj, Option.map_some, Option.some.injEq] at hq
      exact ⟨vs, by simp [State.sinkAt?, hj', hsink, hq]⟩
    · exact ⟨[], by simpa [State.sinkAt?, hoth m hm] using hq⟩

/-- A command does nothing to a port but append to its stream (R34). -/
theorem exec_sinkAt? {i : Instr} {s t : State} {p : Port} {q : SinkPort} (h : exec i s = .next t)
    (hq : s.sinkAt? p = some q) : ∃ vs, t.sinkAt? p = some (q.emitAll vs) := by
  cases i with
  | encIngest k b =>
    refine onEnc_sinkAt? (fun e e' hf => ?_) h hq
    obtain ⟨vs, -, -, hsink, -⟩ := encIngestOn_emits hf
    exact ⟨vs, hsink⟩
  | encFlush k =>
    refine onEnc_sinkAt? (fun e e' hf => ?_) h hq
    obtain ⟨vs, -, -, -, hsink⟩ := flushCore_emits hf
    exact ⟨vs, hsink⟩
  | decIngest j b =>
    refine onDec_sinkAt? (fun d d' hf => ?_) h hq
    obtain ⟨vs, -, -, hsink, -⟩ := decIngestOn_emits hf
    exact ⟨vs, hsink⟩

/-- Everything a step can do to one output port; appending nothing leaves it as it is. -/
theorem step_sinkAt? {s t : State} {p : Port} {q : SinkPort} (h : step s = .next t) (hq : s.sinkAt? p = some q) :
    ∃ q', t.sinkAt? p = some q' ∧
      ((∃ vs, q' = q.emitAll vs) ∨ q' = q.reset ∨ q' = q.transfer ∨ ∃ r, q' = q.setReady r) := by
  obtain ⟨-, -, rfl⟩ | ⟨pre, x, post, -, -, -, -, hx⟩ := step_cases h
  · exact ⟨q.transfer, by simp [State.sinkAt?_transferAll, hq], by simp⟩
  have hq₁ : (s.setInputs (pre ++ post)).sinkAt? p = some q := by simpa using hq
  have hsame : ∃ vs, q = q.emitAll vs := ⟨[], q.emitAll_nil.symm⟩
  obtain ⟨p', w, i, -, -, hi⟩ | ⟨p', w, -, -, -, -, rfl⟩ | ⟨p', w, -, -, -, rfl⟩ | ⟨p', -, -, -, rfl⟩ |
    ⟨p', r, -, -, -, rfl⟩ := perform_cases hx
  · obtain ⟨vs, hvs⟩ := exec_sinkAt? hi hq₁
    exact ⟨_, hvs, .inl ⟨vs, rfl⟩⟩
  · obtain ht | ht := State.sinkAt?_resetAt_cases hq₁ p'
    · exact ⟨q, ht, .inl hsame⟩
    · exact ⟨_, ht, .inr (.inl rfl)⟩
  · obtain ht | ht := State.sinkAt?_resetAt_cases hq₁ p'
    · exact ⟨q, ht, .inl hsame⟩
    · exact ⟨_, ht, .inr (.inl rfl)⟩
  · obtain ht | ht := State.sinkAt?_onSinkAt_cases hq₁ p' _
    · exact ⟨q, ht, .inl hsame⟩
    · exact ⟨_, ht, .inr (.inr (.inl rfl))⟩
  · obtain ht | ht := State.sinkAt?_onSinkAt_cases hq₁ p' _
    · exact ⟨q, ht, .inl hsame⟩
    · exact ⟨_, ht, .inr (.inr (.inr ⟨r, rfl⟩))⟩

/-- An output cycle only adds to the delivered bytes (R45). -/
theorem SinkPort.delivered_prefix_transfer (q : SinkPort) : q.delivered <+: q.transfer.delivered := by
  unfold SinkPort.transfer
  split
  · exact List.take_prefix_take_left (by dsimp only; omega)
  · exact List.prefix_rfl

/-- A reset keeps the delivered bytes (R130). -/
@[simp] theorem SinkPort.delivered_reset (q : SinkPort) : q.reset.delivered = q.delivered :=
  SinkPort.delivered_of_idle rfl

/-- The ready line has no part in what is delivered. -/
@[simp] theorem SinkPort.delivered_setReady (r : Bool) (q : SinkPort) : (q.setReady r).delivered = q.delivered := rfl

/-- Settles O49: a step emits at a port, resets it, gives it an output cycle or sets its ready line, and none of these takes
a delivered byte back. -/
theorem deliveredBytesStay : Obligations.DeliveredBytesStay := by
  intro s t p q h hq
  obtain ⟨q', hq', hcase⟩ := step_sinkAt? h hq
  refine ⟨q', hq', ?_⟩
  obtain ⟨vs, rfl⟩ | rfl | rfl | ⟨r, rfl⟩ := hcase
  · simp
  · simp
  · exact q.delivered_prefix_transfer
  · simp

/-- Settles O51: every instance of a launched platform is its `launch` value, and an idle port has delivered its whole
stream, which is what a reset keeps. -/
theorem resetValues : Obligations.ResetValues := by
  refine ⟨fun encEscs decEscs k E hE => ⟨EncInst.launch E, ?_, rfl, rfl, rfl, rfl⟩,
    fun encEscs decEscs j E hE => ⟨DecInst.launch E, ?_, rfl, rfl, rfl, rfl⟩, fun s p q hq hidle => ⟨q.reset, ?_, ?_⟩, rfl⟩
  · simp [State.launch, hE]
  · simp [State.launch, hE]
  · simp [State.sinkAt?_resetAt, hq]
  · exact SinkPort.delivered_of_idle hidle

end Sys2Proof.Machine
end

section
/-! SUPPORT. The invariant of every instance (R25, R26, R29, R148): reset meets it, every step keeps it, and no step or
command faults where it holds. -/

namespace Sys2Proof.Machine

/-! ### Output ports -/

/-- An idle port meets the invariant after it emits at most `bound` bytes. -/
theorem SinkPort.inv_emitAll_of_idle {n : Nat} {q : SinkPort} {vs : List Byte} (hidle : q.undelivered = 0)
    (hvs : vs.length ≤ n) : (q.emitAll vs).Inv n := by
  simp [SinkPort.Inv, hidle, hvs]

/-- An output cycle keeps the invariant of its port. -/
theorem SinkPort.Inv.transfer {n : Nat} {q : SinkPort} (h : q.Inv n) : q.transfer.Inv n := by
  obtain ⟨hlen, hbound⟩ := h
  unfold SinkPort.transfer
  split
  · exact ⟨(Nat.sub_le _ _).trans hlen, (Nat.sub_le _ _).trans hbound⟩
  · exact ⟨hlen, hbound⟩

/-- A reset port meets the invariant: nothing waits. -/
theorem SinkPort.inv_reset (n : Nat) (q : SinkPort) : q.reset.Inv n := by simp [SinkPort.Inv]

/-- A launched port meets the invariant: nothing waits. -/
theorem SinkPort.inv_launch (n : Nat) : SinkPort.launch.Inv n := by simp [SinkPort.Inv]

/-! ### Instances -/

/-- A reset encoder has no open run and nothing waiting. -/
theorem EncInst.inv_reset (e : EncInst) : e.reset.Inv := ⟨by simp, by simp, e.sink.inv_reset 3⟩

/-- A reset decoder is in phase Normal with nothing waiting. -/
theorem DecInst.inv_reset (d : DecInst) : d.reset.Inv := ⟨by simp, d.sink.inv_reset 255⟩

/-- FlushCore at an idle instance keeps its invariant: it leaves no run open. -/
theorem EncInst.Inv.of_flushCore {e e' : EncInst} (hI : e.Inv) (hidle : e.sink.undelivered = 0)
    (h : flushCore e = .ok e') : e'.Inv := by
  obtain ⟨vs, hvs, -, -, hsink⟩ := flushCore_emits h
  have hport : e'.sink.Inv 3 := hsink ▸ SinkPort.inv_emitAll_of_idle hidle hvs
  obtain ⟨-, hf⟩ | ⟨-, -, hf⟩ | ⟨-, -, hf⟩ := flushCore_cases e
  all_goals simp only [hf, Except.ok.injEq, reduceCtorEq] at h
  · exact h ▸ hI
  · exact ⟨by simp [← h], by simp [← h], hport⟩

/-- ENC_INGEST at an idle instance keeps its invariant: a run is closed before it reaches 255 (R25, R74). -/
theorem EncInst.Inv.of_encIngestOn {b : Byte} {e e' : EncInst} (hI : e.Inv) (hidle : e.sink.undelivered = 0)
    (h : encIngestOn b e = .ok e') : e'.Inv := by
  obtain ⟨hrun, hheld, -⟩ := hI
  obtain ⟨vs, hvs, -, hsink, -⟩ := encIngestOn_emits h
  have hport : e'.sink.Inv 3 := hsink ▸ SinkPort.inv_emitAll_of_idle hidle hvs
  obtain ⟨-, hf⟩ | ⟨-, hp, -, h255, hf⟩ | ⟨-, -, -, -, hf⟩ | ⟨-, -, -, hf⟩ | ⟨-, -, hf⟩ := encIngestOn_cases b e
  all_goals simp only [hf, Except.ok.injEq, reduceCtorEq] at h
  · exact ⟨by simp [← h], by simp [← h], hport⟩
  · refine ⟨?_, fun _ => by simp [← h, hp], hport⟩
    have hlast : (e.runLength + 1#8).toNat ≤ 254 := by bv_omega
    simpa [← h] using hlast
  · exact ⟨by simp [← h], by simp [← h], hport⟩
  · exact ⟨by simp [← h], by simp [← h], hport⟩

/-- DEC_INGEST at an idle instance keeps its invariant: phase SawEscapeAndByte is entered with its byte captured (R29). -/
theorem DecInst.inv_of_decIngestOn {b : Byte} {d d' : DecInst} (hidle : d.sink.undelivered = 0)
    (h : decIngestOn b d = .ok d') : d'.Inv := by
  obtain ⟨vs, hvs, -, hsink, -⟩ := decIngestOn_emits h
  refine ⟨?_, hsink ▸ SinkPort.inv_emitAll_of_idle hidle hvs⟩
  obtain ⟨-, -, hf⟩ | ⟨hph, -, hf⟩ | ⟨-, hf⟩ | ⟨-, -, hf⟩ | ⟨-, -, -, hf⟩ := decIngestOn_cases b d
  all_goals simp only [hf, Except.ok.injEq, reduceCtorEq] at h
  · simp [← h]
  · simp [← h, hph]
  · simp [← h]
  · simp [← h]

/-! ### The machine -/

/-- A change of one port that keeps the invariant of ports keeps that of the machine. -/
theorem State.Inv.onSinkAt {s : State} {f : SinkPort → SinkPort} (hI : s.Inv)
    (hf : ∀ (n : Nat) (q : SinkPort), q.Inv n → (f q).Inv n) (p : Port) : (s.onSinkAt p f).Inv := by
  obtain ⟨hencs, hdecs⟩ := hI
  cases p with
  | enc k =>
    exact ⟨forall_mem_modify hencs fun e ⟨hrun, hheld, hport⟩ => ⟨hrun, hheld, hf 3 _ hport⟩, hdecs⟩
  | dec j => exact ⟨hencs, forall_mem_modify hdecs fun d ⟨hheld, hport⟩ => ⟨hheld, hf 255 _ hport⟩⟩

/-- A reset of one instance keeps the invariant. -/
theorem State.Inv.resetAt {s : State} (hI : s.Inv) (p : Port) : (s.resetAt p).Inv := by
  obtain ⟨hencs, hdecs⟩ := hI
  cases p with
  | enc k => exact ⟨forall_mem_modify hencs fun e _ => e.inv_reset, hdecs⟩
  | dec j => exact ⟨hencs, forall_mem_modify hdecs fun d _ => d.inv_reset⟩

/-- An output cycle of every sink keeps the invariant. -/
theorem State.Inv.transferAll {s : State} (hI : s.Inv) : s.transferAll.Inv := by
  obtain ⟨hencs, hdecs⟩ := hI
  refine ⟨List.forall_mem_map.mpr fun e he => ?_, List.forall_mem_map.mpr fun d hd => ?_⟩
  · obtain ⟨hrun, hheld, hport⟩ := hencs e he
    exact ⟨hrun, hheld, hport.transfer⟩
  · obtain ⟨hheld, hport⟩ := hdecs d hd
    exact ⟨hheld, hport.transfer⟩

/-- A transition of one ENC instance that meets the invariant afterwards keeps the invariant of the machine. -/
theorem State.Inv.of_onEnc {k : Nat} {f : EncInst → Except Fault EncInst} {s t : State} (hI : s.Inv)
    (hf : ∀ e e', s.encs[k]? = some e → e.Inv → f e = .ok e' → e'.Inv) (h : onEnc k f s = .next t) : t.Inv := by
  obtain ⟨hencs, hdecs⟩ := hI
  obtain ⟨e, e', hk, he, rfl⟩ := onEnc_next h
  exact ⟨forall_mem_set hencs (hf e e' hk (hencs e (List.mem_of_getElem? hk)) he), hdecs⟩

/-- A transition of one DEC instance that meets the invariant afterwards keeps the invariant of the machine. -/
theorem State.Inv.of_onDec {j : Nat} {f : DecInst → Except Fault DecInst} {s t : State} (hI : s.Inv)
    (hf : ∀ d d', s.decs[j]? = some d → f d = .ok d' → d'.Inv) (h : onDec j f s = .next t) : t.Inv := by
  obtain ⟨hencs, hdecs⟩ := hI
  obtain ⟨d, d', hj, hd, rfl⟩ := onDec_next h
  exact ⟨hencs, forall_mem_set hdecs (hf d d' hj hd)⟩

/-- A command on the port of an idle instance keeps the invariant. -/
theorem State.Inv.of_exec {i : Instr} {s t : State} (hI : s.Inv) (hidle : s.busyAt i.port = false)
    (h : exec i s = .next t) : t.Inv := by
  have hnone : ∀ q, s.sinkAt? i.port = some q → q.undelivered = 0 := fun q hq => by
    simpa [State.busyAt_of_sink hq, SinkPort.busy] using hidle
  cases i with
  | encIngest k b =>
    exact hI.of_onEnc (fun e e' hk hInv => hInv.of_encIngestOn (hnone e.sink (by simp [Instr.port, State.sinkAt?, hk]))) h
  | encFlush k =>
    exact hI.of_onEnc (fun e e' hk hInv => hInv.of_flushCore (hnone e.sink (by simp [Instr.port, State.sinkAt?, hk]))) h
  | decIngest j b =>
    exact hI.of_onDec (fun d d' hj => DecInst.inv_of_decIngestOn (hnone d.sink (by simp [Instr.port, State.sinkAt?, hj]))) h

/-- Settles O44: a step is an output cycle of every sink or one input, and each keeps the invariant; the bound on waiting
bytes holds because a command runs only at an idle instance (R141). -/
theorem stepKeepsInvariant : Obligations.StepKeepsInvariant := by
  intro s t hI h
  obtain ⟨-, -, rfl⟩ | ⟨pre, x, post, -, -, -, hwait, hx⟩ := step_cases h
  · exact hI.transferAll
  have hI₁ : (s.setInputs (pre ++ post)).Inv := hI
  obtain ⟨p, w, i, rfl, hd, hi⟩ | ⟨p, -, -, -, -, -, rfl⟩ | ⟨p, -, -, -, -, rfl⟩ | ⟨p, -, -, -, rfl⟩ |
    ⟨p, r, -, -, -, rfl⟩ := perform_cases hx
  · have hidle : s.busyAt p = false := hwait
    exact hI₁.of_exec (by simpa [port_of_decode hd] using hidle) hi
  · exact hI₁.resetAt p
  · exact hI₁.resetAt p
  · exact hI₁.onSinkAt (fun n q hq => hq.transfer) p
  · exact hI₁.onSinkAt (f := SinkPort.setReady r) (fun n q hq => hq) p

/-- Settles O45: a launched instance has no run open, no frame begun and no byte waiting. -/
theorem resetMeetsInvariant : Obligations.ResetMeetsInvariant := by
  have hlaunch (encEscs decEscs : List Byte) : (State.launch encEscs decEscs).Inv :=
    ⟨List.forall_mem_map.mpr fun E _ => ⟨by simp, by simp, SinkPort.inv_launch 3⟩,
      List.forall_mem_map.mpr fun E _ => ⟨by simp, SinkPort.inv_launch 255⟩⟩
  exact ⟨hlaunch, hlaunch Config.resetEncs Config.resetDecs⟩

/-! ### No fault -/

/-- FlushCore does not fault where an open run's byte is held (R26, R113). -/
theorem EncInst.Held.flushCore_ne_error {e : EncInst} (hheld : e.Held) (r : Fault) : flushCore e ≠ .error r := by
  intro h
  obtain ⟨-, hf⟩ | ⟨-, -, hf⟩ | ⟨hrun, hp, -⟩ := flushCore_cases e
  · simp [hf] at h
  · simp [hf] at h
  · simp [hheld hrun] at hp

/-- ENC_INGEST does not fault where an open run's byte is held (R26, R113). -/
theorem EncInst.Held.encIngestOn_ne_error {e : EncInst} (hheld : e.Held) (b : Byte) (r : Fault) :
    encIngestOn b e ≠ .error r := by
  intro h
  obtain ⟨-, hf⟩ | ⟨-, -, -, -, hf⟩ | ⟨-, -, -, -, hf⟩ | ⟨-, -, -, hf⟩ | ⟨hrun, hp, -⟩ := encIngestOn_cases b e
  · simp [hf] at h
  · simp [hf] at h
  · simp [hf] at h
  · simp [hf] at h
  · simp [hheld hrun] at hp

/-- DEC_INGEST does not fault where the byte of phase SawEscapeAndByte is held (R29, R113). -/
theorem DecInst.Held.decIngestOn_ne_error {d : DecInst} (hheld : d.Held) (b : Byte) (r : Fault) :
    decIngestOn b d ≠ .error r := by
  intro h
  obtain ⟨-, -, hf⟩ | ⟨-, -, hf⟩ | ⟨-, hf⟩ | ⟨-, -, hf⟩ | ⟨hph, -, hp, -⟩ := decIngestOn_cases b d
  · simp [hf] at h
  · simp [hf] at h
  · simp [hf] at h
  · simp [hf] at h
  · simp [hheld hph] at hp

/-- If `onEnc` faults, the instance's transition does. -/
theorem onEnc_fault {k : Nat} {f : EncInst → Except Fault EncInst} {s : State} {r : Fault} (h : onEnc k f s = .fault r) :
    ∃ e, s.encs[k]? = some e ∧ f e = .error r := by
  obtain ⟨-, h'⟩ | ⟨e, r', hk, hf, h'⟩ | ⟨e, e', -, -, h'⟩ := onEnc_cases k f s
  · simp [h'] at h
  · rw [h', Host.Outcome.fault.injEq] at h
    exact ⟨e, hk, h ▸ hf⟩
  · simp [h'] at h

/-- If `onDec` faults, the instance's transition does. -/
theorem onDec_fault {j : Nat} {f : DecInst → Except Fault DecInst} {s : State} {r : Fault} (h : onDec j f s = .fault r) :
    ∃ d, s.decs[j]? = some d ∧ f d = .error r := by
  obtain ⟨-, h'⟩ | ⟨d, r', hj, hf, h'⟩ | ⟨d, d', -, -, h'⟩ := onDec_cases j f s
  · simp [h'] at h
  · rw [h', Host.Outcome.fault.injEq] at h
    exact ⟨d, hj, h ▸ hf⟩
  · simp [h'] at h

/-- No command faults where every instance meets the invariant. -/
theorem State.Inv.exec_ne_fault {s : State} (hI : s.Inv) (i : Instr) (r : Fault) : exec i s ≠ .fault r := by
  obtain ⟨hencs, hdecs⟩ := hI
  have hencHeld {k : Nat} {e : EncInst} (hk : s.encs[k]? = some e) : e.Held := by
    obtain ⟨-, hheld, -⟩ := hencs e (List.mem_of_getElem? hk)
    exact hheld
  have hdecHeld {j : Nat} {d : DecInst} (hj : s.decs[j]? = some d) : d.Held := by
    obtain ⟨hheld, -⟩ := hdecs d (List.mem_of_getElem? hj)
    exact hheld
  intro h
  cases i with
  | encIngest k b =>
    obtain ⟨e, hk, hf⟩ := onEnc_fault h
    exact (hencHeld hk).encIngestOn_ne_error b r hf
  | encFlush k =>
    obtain ⟨e, hk, hf⟩ := onEnc_fault h
    exact (hencHeld hk).flushCore_ne_error r hf
  | decIngest j b =>
    obtain ⟨d, hj, hf⟩ := onDec_fault h
    exact (hdecHeld hj).decIngestOn_ne_error b r hf

/-- An input that faults is an offered word whose command faults. -/
theorem perform_fault {x : Input} {s : State} {r : Fault} (h : perform x s = .fault r) :
    ∃ p w i, x = .offer p w ∧ decode p w = .command i ∧ exec i s = .fault r := by
  cases x with
  | offer p w =>
    simp only [perform, offerCommand, acceptCommand] at h
    split at h
    · cases h
    · split at h
      · rename_i i hd
        exact ⟨p, w, i, rfl, hd, h⟩
      · cases h
  | reset p w =>
    simp only [perform, resetStep] at h
    split at h
    · cases h
    · split at h <;> cases h
  | resetDuringOutput p w =>
    simp only [perform, atPort] at h
    split at h <;> cases h
  | transfer p =>
    simp only [perform, atPort] at h
    split at h <;> cases h
  | sinkReady p r =>
    simp only [perform, atPort] at h
    split at h <;> cases h

/-- A step that faults runs a command that faults. -/
theorem step_fault {s : State} {r : Fault} (h : step s = .fault r) :
    ∃ (i : Instr) (is : List Input), exec i (s.setInputs is) = .fault r := by
  cases hn : s.nextInput? [] s.inputs with
  | none => simp [step_no_input hn] at h
  | some c =>
    rw [step_of_nextInput hn] at h
    obtain ⟨-, -, i, -, -, hi⟩ := perform_fault h
    exact ⟨i, c.2, hi⟩

/-- Settles O46: only a command can fault, and it does so only where a byte that the invariant says is held is missing. -/
theorem goodStatesNeverFault : Obligations.GoodStatesNeverFault := by
  intro s hI
  refine ⟨fun r h => ?_, hI.exec_ne_fault⟩
  obtain ⟨i, is, hi⟩ := step_fault h
  have hI₁ : (s.setInputs is).Inv := hI
  exact hI₁.exec_ne_fault i r hi

end Sys2Proof.Machine
end

section
/-! SUPPORT. Independence of the instances (R37, R50), and of every outcome from a meaningless `pendingByte` (U1, U2). -/

namespace Sys2Proof.Machine

/-! ### Commands of two instances -/

/-- A command on an ENC port is one transition of the ENC instance there (R56). -/
theorem exec_eq_onEnc {i : Instr} {k : Nat} (h : i.port = .enc k) : ∃ f, ∀ s, exec i s = onEnc k f s := by
  cases i <;> cases h
  case encIngest b => exact ⟨encIngestOn b, fun _ => rfl⟩
  case encFlush => exact ⟨flushCore, fun _ => rfl⟩

/-- A command on a DEC port is one transition of the DEC instance there (R56). -/
theorem exec_eq_onDec {i : Instr} {j : Nat} (h : i.port = .dec j) : ∃ f, ∀ s, exec i s = onDec j f s := by
  cases i <;> cases h
  case decIngest b => exact ⟨decIngestOn b, fun _ => rfl⟩

/-- Transitions of two ENC instances commute. -/
theorem onEnc_onEnc_comm {k m : Nat} {f g : EncInst → Except Fault EncInst} {s t u : State} (hkm : k ≠ m)
    (hf : onEnc k f s = .next t) (hg : onEnc m g t = .next u) :
    ∃ t', onEnc m g s = .next t' ∧ onEnc k f t' = .next u := by
  obtain ⟨e, e', hk, he, rfl⟩ := onEnc_next hf
  obtain ⟨a, a', hm, ha, rfl⟩ := onEnc_next hg
  have hm' : s.encs[m]? = some a := by simpa [hkm] using hm
  have hk' : (s.setEnc m a').encs[k]? = some e := by simpa [hkm.symm] using hk
  refine ⟨_, onEnc_ok hm' ha, (onEnc_ok hk' he).trans ?_⟩
  simp [State.setEnc, List.set_comm _ _ hkm]

/-- Transitions of two DEC instances commute. -/
theorem onDec_onDec_comm {j m : Nat} {f g : DecInst → Except Fault DecInst} {s t u : State} (hjm : j ≠ m)
    (hf : onDec j f s = .next t) (hg : onDec m g t = .next u) :
    ∃ t', onDec m g s = .next t' ∧ onDec j f t' = .next u := by
  obtain ⟨d, d', hj, hd, rfl⟩ := onDec_next hf
  obtain ⟨a, a', hm, ha, rfl⟩ := onDec_next hg
  have hm' : s.decs[m]? = some a := by simpa [hjm] using hm
  have hj' : (s.setDec m a').decs[j]? = some d := by simpa [hjm.symm] using hj
  refine ⟨_, onDec_ok hm' ha, (onDec_ok hj' hd).trans ?_⟩
  simp [State.setDec, List.set_comm _ _ hjm]

/-- A transition of an ENC instance and a later one of a DEC instance commute. -/
theorem onEnc_onDec_comm {k j : Nat} {f : EncInst → Except Fault EncInst} {g : DecInst → Except Fault DecInst}
    {s t u : State} (hf : onEnc k f s = .next t) (hg : onDec j g t = .next u) :
    ∃ t', onDec j g s = .next t' ∧ onEnc k f t' = .next u := by
  obtain ⟨e, e', hk, he, rfl⟩ := onEnc_next hf
  obtain ⟨d, d', hj, hd, rfl⟩ := onDec_next hg
  exact ⟨s.setDec j d', onDec_ok hj hd, onEnc_ok hk he⟩

/-- A transition of a DEC instance and a later one of an ENC instance commute. -/
theorem onDec_onEnc_comm {j k : Nat} {f : DecInst → Except Fault DecInst} {g : EncInst → Except Fault EncInst}
    {s t u : State} (hf : onDec j f s = .next t) (hg : onEnc k g t = .next u) :
    ∃ t', onEnc k g s = .next t' ∧ onDec j f t' = .next u := by
  obtain ⟨d, d', hj, hd, rfl⟩ := onDec_next hf
  obtain ⟨e, e', hk, he, rfl⟩ := onEnc_next hg
  exact ⟨s.setEnc k e', onEnc_ok hk he, onDec_ok hj hd⟩

/-- Settles O40: a command is a transition of the one instance on its port, and transitions of two instances commute. -/
theorem instancesCommute : Obligations.InstancesCommute := by
  intro s t u i j hp hi hj
  cases hpi : i.port with
  | enc k =>
    obtain ⟨f, hf⟩ := exec_eq_onEnc hpi
    cases hpj : j.port with
    | enc m =>
      obtain ⟨g, hg⟩ := exec_eq_onEnc hpj
      have hkm : k ≠ m := by simpa [hpi, hpj] using hp
      simp only [hf, hg] at hi hj ⊢
      exact onEnc_onEnc_comm hkm hi hj
    | dec m =>
      obtain ⟨g, hg⟩ := exec_eq_onDec hpj
      simp only [hf, hg] at hi hj ⊢
      exact onEnc_onDec_comm hi hj
  | dec k =>
    obtain ⟨f, hf⟩ := exec_eq_onDec hpi
    cases hpj : j.port with
    | enc m =>
      obtain ⟨g, hg⟩ := exec_eq_onEnc hpj
      simp only [hf, hg] at hi hj ⊢
      exact onDec_onEnc_comm hi hj
    | dec m =>
      obtain ⟨g, hg⟩ := exec_eq_onDec hpj
      have hkm : k ≠ m := by simpa [hpi, hpj] using hp
      simp only [hf, hg] at hi hj ⊢
      exact onDec_onDec_comm hkm hi hj

/-! ### A meaningless `pendingByte` -/

@[simp] theorem EncInst.masked_esc (e : EncInst) : e.masked.esc = e.esc := by unfold EncInst.masked; split <;> rfl
@[simp] theorem EncInst.masked_runLength (e : EncInst) : e.masked.runLength = e.runLength := by
  unfold EncInst.masked; split <;> rfl
@[simp] theorem EncInst.masked_sink (e : EncInst) : e.masked.sink = e.sink := by unfold EncInst.masked; split <;> rfl
@[simp] theorem DecInst.masked_esc (d : DecInst) : d.masked.esc = d.esc := by unfold DecInst.masked; split <;> rfl
@[simp] theorem DecInst.masked_phase (d : DecInst) : d.masked.phase = d.phase := by
  unfold DecInst.masked; split <;> rfl
@[simp] theorem DecInst.masked_sink (d : DecInst) : d.masked.sink = d.sink := by unfold DecInst.masked; split <;> rfl

/-- An open run's byte is meaningful (R22). -/
theorem EncInst.masked_of_open {e : EncInst} (h : e.runLength ≠ 0#8) : e.masked = e := if_neg h

/-- With no open run `pendingByte` is wiped out (R22). -/
theorem EncInst.masked_of_closed {e : EncInst} (h : e.runLength = 0#8) : e.masked = { e with pending := .noValue } :=
  if_pos h

/-- The captured byte of phase SawEscapeAndByte is meaningful (R29). -/
theorem DecInst.masked_of_captured {d : DecInst} (h : d.phase = .sawEscapeAndByte) : d.masked = d := if_pos h

/-- In another phase `pendingByte` is wiped out (R29). -/
theorem DecInst.masked_of_not_captured {d : DecInst} (h : d.phase ≠ .sawEscapeAndByte) :
    d.masked = { d with pending := .noValue } := if_neg h

/-- Wiping out twice is wiping out once. -/
@[simp] theorem EncInst.masked_masked (e : EncInst) : e.masked.masked = e.masked := by
  by_cases h : e.runLength = 0#8
  · rw [EncInst.masked_of_closed (e := e.masked) (by simpa using h), EncInst.masked_of_closed h]
  · rw [EncInst.masked_of_open h, EncInst.masked_of_open h]

/-- Wiping out twice is wiping out once. -/
@[simp] theorem DecInst.masked_masked (d : DecInst) : d.masked.masked = d.masked := by
  by_cases h : d.phase = .sawEscapeAndByte
  · rw [DecInst.masked_of_captured h, DecInst.masked_of_captured h]
  · rw [DecInst.masked_of_not_captured (d := d.masked) (by simpa using h), DecInst.masked_of_not_captured h]

/-- A reset leaves nothing of a `pendingByte`. -/
theorem EncInst.reset_masked (e : EncInst) : e.masked.reset = e.reset := by simp [EncInst.reset]

/-- A reset leaves nothing of a `pendingByte`. -/
theorem DecInst.reset_masked (d : DecInst) : d.masked.reset = d.reset := by simp [DecInst.reset]

/-- A change of the output port leaves a `pendingByte` as meaningful as it was. -/
theorem EncInst.masked_onSink (f : SinkPort → SinkPort) (e : EncInst) : (e.onSink f).masked = e.masked.onSink f := by
  by_cases h : e.runLength = 0#8
  · rw [EncInst.masked_of_closed (e := e.onSink f) h, EncInst.masked_of_closed h]; rfl
  · rw [EncInst.masked_of_open (e := e.onSink f) h, EncInst.masked_of_open h]

/-- A change of the output port leaves a `pendingByte` as meaningful as it was. -/
theorem DecInst.masked_onSink (f : SinkPort → SinkPort) (d : DecInst) : (d.onSink f).masked = d.masked.onSink f := by
  by_cases h : d.phase = .sawEscapeAndByte
  · rw [DecInst.masked_of_captured (d := d.onSink f) h, DecInst.masked_of_captured h]
  · rw [DecInst.masked_of_not_captured (d := d.onSink f) h, DecInst.masked_of_not_captured h]; rfl

/-- ENC_INGEST never reads a meaningless `pendingByte`: with no open run it writes the register first (R76). -/
theorem encIngestOn_masked (b : Byte) (e : EncInst) : encIngestOn b e.masked = encIngestOn b e := by
  by_cases h : e.runLength = 0#8
  · simp [encIngestOn, encOpen, h, EncInst.startRun]
  · rw [EncInst.masked_of_open h]

/-- FlushCore never reads a meaningless `pendingByte`: with no open run it does nothing (R73). -/
theorem flushCore_masked (e : EncInst) :
    (flushCore e.masked).map EncInst.masked = (flushCore e).map EncInst.masked := by
  by_cases h : e.runLength = 0#8
  · rw [flushCore_closed h, flushCore_closed (e := e.masked) (by simpa using h)]
    simp [Except.map]
  · rw [EncInst.masked_of_open h]

/-- DEC_INGEST reads `pendingByte` in phase SawEscapeAndByte only (R90). -/
theorem decIngestOn_masked (b : Byte) (d : DecInst) :
    (decIngestOn b d.masked).map DecInst.masked = (decIngestOn b d).map DecInst.masked := by
  cases hph : d.phase with
  | normal =>
    rw [DecInst.masked_of_not_captured (by simp [hph])]
    by_cases hb : b = d.esc <;> simp [decIngestOn, hph, hb, Except.map, DecInst.masked]
  | sawEscape =>
    rw [DecInst.masked_of_not_captured (by simp [hph])]
    simp [decIngestOn, hph]
  | sawEscapeAndByte => rw [DecInst.masked_of_captured hph]

/-- A change `f` of one element that ignores what `m` wipes out, in a list of which only what `m` leaves is looked at. -/
theorem map_modify_map {α : Type} {m f : α → α} (hm : ∀ a, m (m a) = m a) (hf : ∀ a, m (f (m a)) = m (f a))
    (l : List α) (k : Nat) : ((l.map m).modify k f).map m = (l.modify k f).map m := by
  apply List.ext_getElem?
  intro i
  have hmm : m ∘ m = m := funext hm
  have hmf (a : α) : m (f a) = (m ∘ f) (m a) := (hf a).symm
  simp only [List.getElem?_map, getElem?_modify_map hmf, Option.map_map, hmm]

@[simp] theorem State.masked_masked (s : State) : s.masked.masked = s.masked := by simp [State.masked]

@[simp] theorem State.sinkAt?_masked (s : State) (p : Port) : s.masked.sinkAt? p = s.sinkAt? p := by
  cases p <;> simp [State.sinkAt?, State.masked, Function.comp_def]

/-- What a transition of an ENC instance leaves, every meaningless `pendingByte` wiped out. -/
theorem mapNext_masked_onEnc {k : Nat} {s : State} {e : EncInst} (f : EncInst → Except Fault EncInst)
    (hk : s.encs[k]? = some e) :
    mapNext State.masked (onEnc k f s) = onEnc k (fun _ => (f e).map EncInst.masked) s.masked := by
  have hk' : s.masked.encs[k]? = some e.masked := by simp [State.masked, hk]
  simp only [onEnc, hk, hk']
  cases f e with
  | error r => rfl
  | ok a => simp [Except.map, mapNext, State.setEnc, State.masked, List.map_set]

/-- A transition of one ENC instance that ignores a meaningless `pendingByte` there ignores every one. -/
theorem onEnc_masked {f : EncInst → Except Fault EncInst}
    (hf : ∀ e, (f e.masked).map EncInst.masked = (f e).map EncInst.masked) (k : Nat) (s : State) :
    mapNext State.masked (onEnc k f s.masked) = mapNext State.masked (onEnc k f s) := by
  cases hk : s.encs[k]? with
  | none => simp [onEnc, State.masked, hk, mapNext]
  | some e =>
    have hk' : s.masked.encs[k]? = some e.masked := by simp [State.masked, hk]
    rw [mapNext_masked_onEnc f hk, mapNext_masked_onEnc f hk', hf, State.masked_masked]

/-- What a transition of a DEC instance leaves, every meaningless `pendingByte` wiped out. -/
theorem mapNext_masked_onDec {j : Nat} {s : State} {d : DecInst} (f : DecInst → Except Fault DecInst)
    (hj : s.decs[j]? = some d) :
    mapNext State.masked (onDec j f s) = onDec j (fun _ => (f d).map DecInst.masked) s.masked := by
  have hj' : s.masked.decs[j]? = some d.masked := by simp [State.masked, hj]
  simp only [onDec, hj, hj']
  cases f d with
  | error r => rfl
  | ok a => simp [Except.map, mapNext, State.setDec, State.masked, List.map_set]

/-- A transition of one DEC instance that ignores a meaningless `pendingByte` there ignores every one. -/
theorem onDec_masked {f : DecInst → Except Fault DecInst}
    (hf : ∀ d, (f d.masked).map DecInst.masked = (f d).map DecInst.masked) (j : Nat) (s : State) :
    mapNext State.masked (onDec j f s.masked) = mapNext State.masked (onDec j f s) := by
  cases hj : s.decs[j]? with
  | none => simp [onDec, State.masked, hj, mapNext]
  | some d =>
    have hj' : s.masked.decs[j]? = some d.masked := by simp [State.masked, hj]
    rw [mapNext_masked_onDec f hj, mapNext_masked_onDec f hj', hf, State.masked_masked]

/-- No command depends on a meaningless `pendingByte`. -/
theorem exec_masked (i : Instr) (s : State) :
    mapNext State.masked (exec i s.masked) = mapNext State.masked (exec i s) := by
  cases i with
  | encIngest k b => exact onEnc_masked (fun e => by rw [encIngestOn_masked]) k s
  | encFlush k => exact onEnc_masked flushCore_masked k s
  | decIngest j b => exact onDec_masked (decIngestOn_masked b) j s

/-- No change of an output port depends on a meaningless `pendingByte`. -/
theorem State.onSinkAt_masked (p : Port) (f : SinkPort → SinkPort) (s : State) :
    (s.masked.onSinkAt p f).masked = (s.onSinkAt p f).masked := by
  cases p with
  | enc k =>
    have h := map_modify_map EncInst.masked_masked (f := EncInst.onSink f) (by simp [EncInst.masked_onSink]) s.encs k
    simp [State.onSinkAt, State.masked, h]
  | dec j =>
    have h := map_modify_map DecInst.masked_masked (f := DecInst.onSink f) (by simp [DecInst.masked_onSink]) s.decs j
    simp [State.onSinkAt, State.masked, h]

/-- No reset depends on a meaningless `pendingByte`. -/
theorem State.resetAt_masked (p : Port) (s : State) : (s.masked.resetAt p).masked = (s.resetAt p).masked := by
  cases p with
  | enc k =>
    have h := map_modify_map EncInst.masked_masked (f := EncInst.reset) (by simp [EncInst.reset_masked]) s.encs k
    simp [State.resetAt, State.masked, h]
  | dec j =>
    have h := map_modify_map DecInst.masked_masked (f := DecInst.reset) (by simp [DecInst.reset_masked]) s.decs j
    simp [State.resetAt, State.masked, h]

/-- No output cycle depends on a meaningless `pendingByte`. -/
theorem State.transferAll_masked (s : State) : s.masked.transferAll.masked = s.transferAll.masked := by
  simp [State.transferAll, State.masked, EncInst.masked_onSink, DecInst.masked_onSink]

/-- An input at a port ignores a meaningless `pendingByte` if the change it makes does. -/
theorem atPort_masked {f : State → State} (hf : ∀ s, (f s.masked).masked = (f s).masked) (p : Port) (s : State) :
    mapNext State.masked (atPort p f s.masked) = mapNext State.masked (atPort p f s) := by
  cases h : s.sinkAt? p <;> simp [atPort, h, mapNext, hf]

/-- No input depends on a meaningless `pendingByte`. -/
theorem perform_masked (x : Input) (s : State) :
    mapNext State.masked (perform x s.masked) = mapNext State.masked (perform x s) := by
  cases x with
  | offer p w =>
    cases hq : s.sinkAt? p with
    | none => simp [perform, offerCommand, hq, mapNext]
    | some q =>
      cases hd : decode p w with
      | command i => simpa [perform, offerCommand, acceptCommand, hq, hd] using exec_masked i s
      | reserved p' w' => simp [perform, offerCommand, acceptCommand, hq, hd, mapNext]
  | reset p w =>
    cases hq : s.sinkAt? p with
    | none => simp [perform, resetStep, hq, mapNext]
    | some q => cases hb : q.busy <;> simp [perform, resetStep, hq, hb, mapNext, State.resetAt_masked]
  | resetDuringOutput p w => exact atPort_masked (State.resetAt_masked p) p s
  | transfer p => exact atPort_masked (State.onSinkAt_masked p SinkPort.transfer) p s
  | sinkReady p r => exact atPort_masked (State.onSinkAt_masked p (SinkPort.setReady r)) p s

/-- Which inputs wait does not depend on a meaningless `pendingByte`. -/
@[simp] theorem State.waits_masked (s : State) (held : List Port) (x : Input) :
    s.masked.waits held x = s.waits held x := by
  cases x <;> simp [State.waits, State.busyAt]

/-- Which input is next does not depend on a meaningless `pendingByte`. -/
@[simp] theorem State.nextInput?_masked (s : State) (held : List Port) (is : List Input) :
    s.masked.nextInput? held is = s.nextInput? held is := by
  induction is generalizing held with
  | nil => rfl
  | cons x rest ih => simp [State.nextInput?, ih]

/-- No step depends on a meaningless `pendingByte`. -/
theorem step_masked (s : State) : mapNext State.masked (step s.masked) = mapNext State.masked (step s) := by
  have hnext : s.masked.nextInput? [] s.masked.inputs = s.nextInput? [] s.inputs := s.nextInput?_masked [] s.inputs
  cases hn : s.nextInput? [] s.inputs with
  | none => simp [step_no_input hn, step_no_input (hnext.trans hn), mapNext, State.transferAll_masked]
  | some c =>
    rw [step_of_nextInput hn, step_of_nextInput (hnext.trans hn)]
    exact perform_masked c.1 (s.setInputs c.2)

/-- Settles O43: the step of each state agrees with the step of the state with every meaningless `pendingByte` wiped out, and
that is one state. -/
theorem staleByteIsUnobservable : Obligations.StaleByteIsUnobservable := by
  intro s s' h
  rw [← step_masked s, h, step_masked s']

end Sys2Proof.Machine
end

section
/-! SUPPORT. The step of one input at a port (R45, R52), and the independence of an instance from the rest of the state
(R37, R49). -/

namespace Sys2Proof.Machine

/-! ### Inputs at a port that the platform has -/

/-- The host's word at a port of the platform is accepted. -/
theorem offerCommand_of_sink {p : Port} {s : State} {q : SinkPort} (w : CmdWord) (hq : s.sinkAt? p = some q) :
    offerCommand p w s = acceptCommand p w s := by
  simp only [offerCommand, hq]

/-- An accepted word that is a command runs it (R59). -/
theorem acceptCommand_of_decode {p : Port} {w : CmdWord} {i : Instr} (s : State) (hd : decode p w = .command i) :
    acceptCommand p w s = exec i s := by
  simp only [acceptCommand, hd]

/-- An input at a port of the platform changes the state. -/
theorem atPort_of_sink {p : Port} {s : State} {q : SinkPort} (f : State → State) (hq : s.sinkAt? p = some q) :
    atPort p f s = .next (f s) := by
  simp only [atPort, hq]

/-- A word offered at an idle instance does not wait (R141). -/
theorem State.waits_offer_of_idle {s : State} {p : Port} {q : SinkPort} (held : List Port) (w : CmdWord)
    (hq : s.sinkAt? p = some q) (hidle : q.undelivered = 0) : s.waits held (.offer p w) = false := by
  simp [State.waits, State.busyAt_of_sink hq, SinkPort.busy, hidle]

/-- Settles O5: the word does not wait at an idle instance, so it is the next input, and it is accepted as its command. -/
theorem stepRunsDecodedCommand : Obligations.StepRunsDecodedCommand := by
  intro s p w rest q i hi hq hidle hd
  have hq' : (s.setInputs rest).sinkAt? p = some q := by simpa using hq
  calc step s
    _ = offerCommand p w (s.setInputs rest) := step_head hi (State.waits_offer_of_idle [] w hq hidle)
    _ = acceptCommand p w (s.setInputs rest) := offerCommand_of_sink w hq'
    _ = exec i (s.setInputs rest) := acceptCommand_of_decode _ hd

/-- The step of an output cycle changes its port only (R45). -/
theorem step_transfer {s : State} {p : Port} {rest : List Input} {q : SinkPort} (hi : s.inputs = .transfer p :: rest)
    (hq : s.sinkAt? p = some q) : step s = .next ((s.setInputs rest).onSinkAt p SinkPort.transfer) :=
  (step_head hi rfl).trans (atPort_of_sink _ (by simpa using hq))

/-- The step of a ready line changes its port only (R45). -/
theorem step_sinkReady {s : State} {p : Port} {r : Bool} {rest : List Input} {q : SinkPort}
    (hi : s.inputs = .sinkReady p r :: rest) (hq : s.sinkAt? p = some q) :
    step s = .next ((s.setInputs rest).onSinkAt p (SinkPort.setReady r)) :=
  (step_head hi rfl).trans (atPort_of_sink _ (by simpa using hq))

/-- Settles O17: the step changes the port on which the sink drives its ready line, and there only the line. -/
theorem readyLineChangesAlone : Obligations.ReadyLineChangesAlone := by
  intro s p r rest q hi hq
  rw [step_sinkReady hi hq]
  cases p <;> rfl

/-- The byte behind the delivered ones is the one that is delivered next: the oldest waiting byte (R45). -/
theorem SinkPort.delivered_of_one_fewer {q : SinkPort} (hb : q.undelivered ≠ 0) (hle : q.undelivered ≤ q.out.length) :
    ∃ b : Byte, q.out[q.delivered.length]? = some b ∧
      SinkPort.delivered { q with undelivered := q.undelivered - 1 } = q.delivered ++ [b] := by
  have hlen : q.delivered.length = q.out.length - q.undelivered := by simp [SinkPort.delivered]
  have hlt : q.out.length - q.undelivered < q.out.length := by omega
  have hsucc : q.out.length - (q.undelivered - 1) = q.out.length - q.undelivered + 1 := by omega
  refine ⟨q.out[q.out.length - q.undelivered], by rw [hlen]; exact List.getElem?_eq_getElem hlt, ?_⟩
  simp only [SinkPort.delivered, hsucc]
  exact List.take_succ_eq_append_getElem hlt

/-- Settles O16: the step is one output cycle of the port, which takes one from the waiting bytes of a busy port with a ready
sink (`SinkPort.transfer_moves`) and leaves any other port as it is (`SinkPort.transfer_idle`). -/
theorem transferMovesOldestByte : Obligations.TransferMovesOldestByte := by
  intro s p rest q hi hq hle
  have hq' : (s.setInputs rest).sinkAt? p = some q := by simpa using hq
  rw [step_transfer hi hq]
  refine ⟨fun hb hr => ⟨?_, SinkPort.delivered_of_one_fewer hb hle⟩, fun h => ?_⟩
  · rw [State.onSinkAt_congr (g := fun _ => { q with undelivered := q.undelivered - 1 }) hq' (q.transfer_moves hb hr)]
    cases p <;> rfl
  · rw [State.onSinkAt_self hq' (q.transfer_idle h)]
    rfl

/-! ### Commands on the port of one instance -/

/-- What goes on from an outcome answers a next state exactly if the outcome has one to go on from. -/
theorem andThen_eq_next_iff {o : Host.Outcome State Fault Refusal} {f : State → Host.Outcome State Fault Refusal}
    {u : State} : andThen o f = .next u ↔ ∃ t, o = .next t ∧ f t = .next u := by
  cases o <;> simp [andThen]

/-- A relation that each command of a list carries over to the next states, the list carries over to its end. -/
theorem execAll_simulates {R : State → State → Prop} {cs : List Instr}
    (hstep : ∀ i ∈ cs, ∀ s s' t, R s s' → exec i s = .next t → ∃ t', exec i s' = .next t' ∧ R t t') {s s' u : State}
    (hR : R s s') (h : execAll cs s = .next u) : ∃ u', execAll cs s' = .next u' ∧ R u u' := by
  induction cs generalizing s s' with
  | nil =>
    obtain rfl : s = u := by simpa using h
    exact ⟨s', rfl, hR⟩
  | cons i cs ih =>
    rw [execAll_cons, andThen_eq_next_iff] at h
    obtain ⟨t, hi, hcs⟩ := h
    obtain ⟨t', hi', hRt⟩ := hstep i List.mem_cons_self s s' t hR hi
    obtain ⟨u', hcs', hRu⟩ := ih (fun j hj => hstep j (List.mem_cons_of_mem i hj)) hRt hcs
    exact ⟨u', by rw [execAll_cons, andThen_eq_next_iff]; exact ⟨t', hi', hcs'⟩, hRu⟩

/-- A transition of the `k`-th ENC instance does the same to it in every state that holds it. -/
theorem onEnc_of_same {k : Nat} {f : EncInst → Except Fault EncInst} {s s' t : State}
    (hsame : s'.encs[k]? = s.encs[k]?) (h : onEnc k f s = .next t) :
    ∃ t', onEnc k f s' = .next t' ∧ t'.encs[k]? = t.encs[k]? := by
  obtain ⟨e, e', hk, hf, rfl⟩ := onEnc_next h
  have hk' : s'.encs[k]? = some e := hsame.trans hk
  exact ⟨_, onEnc_ok hk' hf, (State.setEnc_getElem? hk').trans (State.setEnc_getElem? hk).symm⟩

/-- A transition of the `j`-th DEC instance does the same to it in every state that holds it. -/
theorem onDec_of_same {j : Nat} {f : DecInst → Except Fault DecInst} {s s' t : State}
    (hsame : s'.decs[j]? = s.decs[j]?) (h : onDec j f s = .next t) :
    ∃ t', onDec j f s' = .next t' ∧ t'.decs[j]? = t.decs[j]? := by
  obtain ⟨d, d', hj, hf, rfl⟩ := onDec_next h
  have hj' : s'.decs[j]? = some d := hsame.trans hj
  exact ⟨_, onDec_ok hj' hf, (State.setDec_getElem? hj').trans (State.setDec_getElem? hj).symm⟩

/-- Settles O41: each command on the port is one transition of the `k`-th ENC instance (`exec_eq_onEnc`), so "the `k`-th ENC
instance is the same" is carried from command to command. -/
theorem encoderDependsOnItselfOnly : Obligations.EncoderDependsOnItselfOnly := by
  intro s s' t k cs hsame hport h
  refine execAll_simulates (R := fun a b => b.encs[k]? = a.encs[k]?) (fun i hi a b u hab hu => ?_) hsame.symm h
  obtain ⟨f, hf⟩ := exec_eq_onEnc (hport i hi)
  rw [hf] at hu ⊢
  exact onEnc_of_same hab hu

/-- Settles O42: each command on the port is one transition of the `j`-th DEC instance (`exec_eq_onDec`), so "the `j`-th DEC
instance is the same" is carried from command to command. -/
theorem decoderDependsOnItselfOnly : Obligations.DecoderDependsOnItselfOnly := by
  intro s s' t j cs hsame hport h
  refine execAll_simulates (R := fun a b => b.decs[j]? = a.decs[j]?) (fun i hi a b u hab hu => ?_) hsame.symm h
  obtain ⟨f, hf⟩ := exec_eq_onDec (hport i hi)
  rw [hf] at hu ⊢
  exact onDec_of_same hab hu

end Sys2Proof.Machine
end

section
/-! SUPPORT. The command word: its two fields, decoding it on a port and encoding a command (R55-R62, R112). -/

namespace Sys2Proof.Machine

/-! ### The fields of a word -/

@[simp] theorem cmdOp_cmdWord (op : BitVec 2) (data : Byte) : cmdOp (cmdWord op data) = op :=
  BitVec.extractLsb'_append_eq_left

@[simp] theorem cmdData_cmdWord (op : BitVec 2) (data : Byte) : cmdData (cmdWord op data) = data :=
  BitVec.extractLsb'_append_eq_right

/-- A word is its two fields and nothing else (R55). -/
theorem cmdWord_cmdOp_cmdData (w : CmdWord) : cmdWord (cmdOp w) (cmdData w) = w :=
  (BitVec.extractLsb'_append_extractLsb'_eq_extractLsb' rfl).trans BitVec.extractLsb'_eq_self

theorem cmdData_eq_setWidth (w : CmdWord) : cmdData w = w.setWidth 8 :=
  (BitVec.setWidth_eq_extractLsb' (by decide)).symm

theorem flushWord_eq : flushWord = cmdWord 0b01#2 0x00#8 := rfl

/-- The mask of an ingest's row keeps `op` and clears `data` (R57, R58). -/
theorem and_opMask (w : CmdWord) : w &&& 0x300#10 = cmdWord (cmdOp w) 0#8 := by
  calc w &&& 0x300#10
    _ = (cmdOp w ++ cmdData w) &&& (0b11#2 ++ 0#8) := congrArg (· &&& 0x300#10) (cmdWord_cmdOp_cmdData w).symm
    _ = (cmdOp w &&& 0b11#2) ++ (cmdData w &&& 0#8) := BitVec.and_append
    _ = (cmdOp w &&& .allOnes 2) ++ (cmdData w &&& 0#8) := rfl
    _ = cmdOp w ++ 0#8 := by rw [BitVec.and_allOnes, BitVec.and_zero]

/-- The test of an ingest's row by match and mask is the decoder's test of `op` (R57, R58). -/
theorem and_opMask_eq_zero_iff (w : CmdWord) : w &&& 0x300#10 = 0x000#10 ↔ cmdOp w = 0b00#2 := by
  rw [and_opMask]
  exact BitVec.append_left_inj (s₂ := 0b00#2) 0#8

/-- The words with `op` zero are the first 256 (R57, R58). -/
theorem cmdOp_eq_zero_iff (w : CmdWord) : cmdOp w = 0b00#2 ↔ w.toNat < 256 := by
  have hw : w.toNat < 1024 := w.isLt
  rw [← BitVec.toNat_inj, cmdOp, BitVec.extractLsb'_toNat, Nat.shiftRight_eq_div_pow]
  change w.toNat / 256 % 4 = 0 ↔ _
  omega

/-! ### What a word on a port is -/

theorem decode_enc (k : Nat) (w : CmdWord) : decode (.enc k) w =
    if cmdOp w = 0b00#2 then .command (.encIngest k (cmdData w))
    else if w = flushWord then .command (.encFlush k) else .reserved (.enc k) w := rfl

theorem decode_dec (k : Nat) (w : CmdWord) : decode (.dec k) w =
    if cmdOp w = 0b00#2 then .command (.decIngest k (cmdData w)) else .reserved (.dec k) w := rfl

/-- Settles O2: the decoder's test of `op` is the test by mask, and its data field the word's low byte. -/
theorem decodeFollowsOpcodeMaps : Obligations.DecodeFollowsOpcodeMaps := by
  intro k w
  simp only [and_opMask_eq_zero_iff, ← cmdData_eq_setWidth]
  exact ⟨decode_enc k w, decode_dec k w⟩

/-- No bit of a command is lost in its word (R57, R58). -/
theorem decode_encode (i : Instr) : decode (encode i).1 (encode i).2 = .command i := by
  cases i with
  | encIngest k b => simp [encode, decode_enc]
  | encFlush k => simp [encode, decode_enc, flushWord_eq]
  | decIngest k b => simp [encode, decode_dec]

/-- A word that is a command is the word of that command (R57, R58). -/
theorem encode_eq_of_decode {p : Port} {w : CmdWord} {i : Instr} (h : decode p w = .command i) : encode i = (p, w) := by
  have ingest (hop : cmdOp w = 0b00#2) : cmdWord 0b00#2 (cmdData w) = w := hop ▸ cmdWord_cmdOp_cmdData w
  cases p with
  | enc k =>
    rw [decode_enc] at h
    split_ifs at h with hop hw
    · obtain rfl := Decoded.command.inj h
      exact congrArg (Prod.mk _) (ingest hop)
    · obtain rfl := Decoded.command.inj h
      exact congrArg (Prod.mk _) hw.symm
  | dec k =>
    rw [decode_dec] at h
    split_ifs at h with hop
    obtain rfl := Decoded.command.inj h
    exact congrArg (Prod.mk _) (ingest hop)

/-- Settles O1: `decode_encode` and `encode_eq_of_decode` are the two directions, and `decode` as a left inverse makes
`encode` injective. -/
theorem encodeDecodeAgree : Obligations.EncodeDecodeAgree := by
  refine ⟨decode_encode, fun p w i => encode_eq_of_decode, fun i j hij => ?_⟩
  have hdec : Decoded.command i = Decoded.command j := by rw [← decode_encode i, hij, decode_encode j]
  exact Decoded.command.inj hdec

/-! ### Reserved words -/

/-- On an ENC port a word is reserved when it is neither an ingest nor the flush word (R57). -/
theorem decode_enc_reserved {k : Nat} {w : CmdWord} (hop : cmdOp w ≠ 0b00#2) (hw : w ≠ flushWord) :
    decode (.enc k) w = .reserved (.enc k) w := by
  rw [decode_enc, if_neg hop, if_neg hw]

/-- On a DEC port a word is reserved when it is no ingest (R58). -/
theorem decode_dec_reserved {k : Nat} {w : CmdWord} (hop : cmdOp w ≠ 0b00#2) :
    decode (.dec k) w = .reserved (.dec k) w := by
  rw [decode_dec, if_neg hop]

/-- Settles O3: the four commands are read back from their own words, and the other two words meet no row of the map. -/
theorem exampleWordsDecode : Obligations.ExampleWordsDecode := fun k =>
  ⟨decode_encode (.encIngest k 0x41#8), decode_encode (.encIngest k 0xFA#8), decode_encode (.encFlush k),
    decode_encode (.decIngest k 0x04#8), decode_enc_reserved (by decide) (by decide), decode_dec_reserved (by decide)⟩

/-- The reserved words of an ENC port are those above the flush word (R57, R61). -/
theorem command?_decode_enc_eq_none_iff (k : Nat) (w : CmdWord) :
    (decode (.enc k) w).command? = none ↔ 257 ≤ w.toNat := by
  have hflush : w = flushWord ↔ w.toNat = 256 := BitVec.toNat_inj.symm
  simp only [decode_enc, cmdOp_eq_zero_iff, hflush]
  split_ifs <;> simp only [Decoded.command?, reduceCtorEq, true_iff, false_iff] <;> omega

/-- The reserved words of a DEC port are those above the ingests (R58, R61). -/
theorem command?_decode_dec_eq_none_iff (k : Nat) (w : CmdWord) :
    (decode (.dec k) w).command? = none ↔ 256 ≤ w.toNat := by
  simp only [decode_dec, cmdOp_eq_zero_iff]
  split_ifs <;> simp only [Decoded.command?, reduceCtorEq, true_iff, false_iff] <;> omega

/-- How many of the 1024 words are the `m`-th or a later one. -/
theorem length_filter_words {P : CmdWord → Prop} [DecidablePred P] {m : Nat} (hP : ∀ w, P w ↔ m ≤ w.toNat) :
    ((List.range 1024).filter fun n => P (BitVec.ofNat 10 n)).length = 1024 - m := by
  have hfilter : ((List.range 1024).filter fun n => P (BitVec.ofNat 10 n)) = (List.range 1024).filter (m ≤ ·) := by
    refine List.filter_congr fun n hn => decide_eq_decide.mpr ?_
    rw [hP, BitVec.toNat_ofNat, Nat.mod_eq_of_lt (List.mem_range.mp hn)]
  rw [hfilter, ← List.Ico.zero_bot, List.Ico.filter_le, List.Ico.length, Nat.zero_max]

/-- Settles O4: 257 words of an ENC port and 256 of a DEC port are commands, and every later word is reserved. -/
theorem reservedWordCounts : Obligations.ReservedWordCounts := fun k =>
  ⟨(length_filter_words (command?_decode_enc_eq_none_iff k)).trans rfl,
    (length_filter_words (command?_decode_dec_eq_none_iff k)).trans rfl⟩

/-- A reserved word at an idle instance is refused by the step that meets it (R61). -/
theorem step_reserved {s : State} {p : Port} {w : CmdWord} {rest : List Input} {q : SinkPort}
    (hi : s.inputs = .offer p w :: rest) (hq : s.sinkAt? p = some q) (hidle : q.undelivered = 0)
    (hd : decode p w = .reserved p w) : step s = .refused (.reservedCommand p w) := by
  have hq' : (s.setInputs rest).sinkAt? p = some q := by simpa using hq
  calc step s
    _ = offerCommand p w (s.setInputs rest) := step_head hi (State.waits_offer_of_idle [] w hq hidle)
    _ = acceptCommand p w (s.setInputs rest) := offerCommand_of_sink w hq'
    _ = .refused (.reservedCommand p w) := by simp only [acceptCommand, hd]

/-- Settles O6: the word is reserved by the opcode map of its port, so the first step refuses it, and a run stops there. -/
theorem reservedWordIsRefused : Obligations.ReservedWordIsRefused := by
  intro s p w rest q n hi hq hidle hres
  have hd : decode p w = .reserved p w := by
    cases p with
    | enc k =>
      obtain ⟨hop, hw⟩ := hres
      exact decode_enc_reserved (mt (and_opMask_eq_zero_iff w).mpr hop) hw
    | dec k => exact decode_dec_reserved (mt (and_opMask_eq_zero_iff w).mpr hres)
  rw [runSteps_succ, step_reserved hi hq hidle hd]
  rfl

end Sys2Proof.Machine
end

section
/-! SUPPORT. The wire format: the item an encoder command emits and the frame a decoder reads (R63-R66, R69). -/

namespace Sys2Proof.Machine

/-! ### The item of a run -/

/-- The item that stands for a run of `n` times `p` (R64, R73). -/
def runItem (esc p n : Byte) : Item :=
  if 3 < n.toNat ∨ p = esc then .frame p n.toNat else .lit p n.toNat

/-- FlushCore emits the bytes of the run's item (R63, R75). -/
theorem runItem_wire (esc p n : Byte) : (runItem esc p n).wire esc = flushBytes esc p n := by
  rw [flushBytes_eq, runItem]
  split
  · simp [Item.wire]
  · rfl

theorem runItem_plain (esc p n : Byte) : (runItem esc p n).plain = List.replicate n.toNat p := by
  unfold runItem
  split <;> rfl

/-- The item of a run that is open is legal (R64). -/
theorem runItem_legal (esc p : Byte) {n : Byte} (hn : n ≠ 0#8) : (runItem esc p n).legal esc = true := by
  have hpos : 1 ≤ n.toNat := Nat.one_le_iff_ne_zero.mpr fun h => hn (BitVec.eq_of_toNat_eq h)
  have hmax : n.toNat ≤ 255 := Nat.le_of_lt_succ n.isLt
  unfold runItem
  split
  · next h =>
    have hlong : 4 ≤ n.toNat ∨ p = esc := h
    simp [Item.legal, hpos, hmax, hlong]
  · next h =>
    obtain ⟨hshort, hesc⟩ := not_or.mp h
    simp [Item.legal, hpos, Nat.not_lt.mp hshort, hesc]

/-- A transition that answers a next state took the `k`-th ENC instance from the old one to the new one. -/
theorem onEnc_transition {k : Nat} {f : EncInst → Except Fault EncInst} {s t : State} {e e' : EncInst}
    (h : onEnc k f s = .next t) (hk : s.encs[k]? = some e) (hk' : t.encs[k]? = some e') : f e = .ok e' := by
  obtain ⟨-, -, -, -, e₀, e₁, hk₀, hk₁, hf⟩ := onEnc_frame h
  obtain rfl : e₀ = e := Option.some.inj (hk₀.symm.trans hk)
  obtain rfl : e₁ = e' := Option.some.inj (hk₁.symm.trans hk')
  exact hf

/-- From `e` to `e'` nothing is emitted, or the bytes of one run: the open run, or that run with its 255th byte. -/
def EncInst.EmitsRun (e e' : EncInst) : Prop :=
  e'.sink.out = e.sink.out ∨
  ∃ n : Byte, n ≠ 0#8 ∧ e'.sink.out = e.sink.out ++ flushBytes e.esc e.pending.byte n ∧
    (n = e.runLength ∨ (e.runLength.toNat = 254 ∧ n = 255#8))

/-- FlushCore emits the open run, if there is one (R73). -/
theorem flushCore_emitsRun {e e' : EncInst} (h : flushCore e = .ok e') : e.EmitsRun e' := by
  obtain ⟨-, hf⟩ | ⟨hopen, -, hf⟩ | ⟨-, -, hf⟩ := flushCore_cases e
  all_goals simp only [hf, Except.ok.injEq, reduceCtorEq] at h
  · exact .inl (by simp [← h])
  · exact .inr ⟨e.runLength, hopen, by simp [← h], .inl rfl⟩

/-- ENC_INGEST emits a run where it ends one (case 3) and where it completes one of 255 bytes (case 2), and nothing else
(R76). -/
theorem encIngestOn_emitsRun {b : Byte} {e e' : EncInst} (h : encIngestOn b e = .ok e') : e.EmitsRun e' := by
  obtain ⟨-, hf⟩ | ⟨-, -, -, -, hf⟩ | ⟨-, -, -, h255, hf⟩ | ⟨hopen, -, -, hf⟩ | ⟨-, -, hf⟩ := encIngestOn_cases b e
  all_goals simp only [hf, Except.ok.injEq, reduceCtorEq] at h
  · exact .inl (by simp [← h])
  · exact .inl (by simp [← h])
  · exact .inr ⟨255#8, by decide, by simp [← h, h255], .inr ⟨by bv_omega, rfl⟩⟩
  · exact .inr ⟨e.runLength, hopen, by simp [← h], .inl rfl⟩

/-- Settles O26: what an encoder command emits is the open run or that run with its 255th byte, and a run is emitted as its
item `runItem`. -/
theorem encCommandEmitsWholeItem : Obligations.EncCommandEmitsWholeItem := by
  intro s t k e e' i hi hk _ hexec hk'
  have hemit : e.EmitsRun e' := by
    obtain rfl | ⟨b, rfl⟩ := hi
    · exact flushCore_emitsRun (onEnc_transition hexec hk hk')
    · exact encIngestOn_emitsRun (onEnc_transition hexec hk hk')
  obtain hout | ⟨n, hn, hout, hrun⟩ := hemit
  · exact .inl hout
  · refine .inr ⟨runItem e.esc e.pending.byte n, runItem_legal _ _ hn, by rw [runItem_wire, hout], ?_⟩
    rw [runItem_plain]
    obtain rfl | ⟨h254, rfl⟩ := hrun
    · exact .inl rfl
    · exact .inr ⟨h254, rfl⟩

/-! ### A frame at the decoder -/

/-- In phase Normal the escape byte begins a frame (R91). -/
theorem decIngestOn_esc {d : DecInst} (h : d.phase = .normal) :
    decIngestOn d.esc d = .ok { d with phase := .sawEscape } := by
  simp [decIngestOn, h]

/-- In phase SawEscape any byte is the frame's run byte (R94). -/
theorem decIngestOn_runByte {d : DecInst} (x : Byte) (h : d.phase = .sawEscape) :
    decIngestOn x d = .ok { d with pending := .write x, phase := .sawEscapeAndByte } := by
  simp [decIngestOn, h]

/-- With the run byte held, any byte is the frame's count, 0 included (R93, R95). -/
theorem decIngestOn_count {d : DecInst} (n : Byte) (h : d.phase = .sawEscapeAndByte) (hp : d.pending.written = true) :
    decIngestOn n d = .ok { d with phase := .normal, sink := d.sink.emitAll (List.replicate n.toNat d.pending.byte) } := by
  simpa [h, hp] using decIngestOn_cases n d

/-- A buffer goes on from the instance that its first byte leaves (R68). -/
theorem execAll_decIngestBuffer_cons {s : State} {j : Nat} {d d' : DecInst} {b : Byte} (bs : List Byte)
    (hj : s.decs[j]? = some d) (hf : decIngestOn b d = .ok d') :
    execAll (decIngestBuffer j (b :: bs)) s = execAll (decIngestBuffer j bs) (s.setDec j d') := by
  rw [decIngestBuffer, List.map_cons, execAll_cons, exec_decIngest, onDec_ok hj hf]
  rfl

/-- Replacing an instance twice is replacing it by the last. -/
@[simp] theorem State.setDec_setDec (s : State) (j : Nat) (d d' : DecInst) :
    (s.setDec j d).setDec j d' = s.setDec j d' := by
  simp [State.setDec]

/-- Settles O31: the three bytes take the decoder through its three phases, and only the count emits. -/
theorem frameDecodesToRun : Obligations.FrameDecodesToRun := by
  intro s j d x n hj hph
  rw [execAll_decIngestBuffer_cons _ hj (decIngestOn_esc hph),
    execAll_decIngestBuffer_cons _ (State.setDec_getElem? hj) (decIngestOn_runByte x rfl), State.setDec_setDec,
    execAll_decIngestBuffer_cons _ (State.setDec_getElem? hj) (decIngestOn_count n rfl rfl), State.setDec_setDec]
  rfl

/-! ### Strings -/

/-- The bytes of a string are those before its first 0x00 (R69, D18). -/
theorem stringBytes_append_zero {xs : List Byte} (ys : List Byte) (h : 0x00#8 ∉ xs) :
    stringBytes (xs ++ 0x00#8 :: ys) = xs := by
  have hxs : ∀ b ∈ xs, (b != 0x00#8) = true := fun b hb => bne_iff_ne.mpr fun h0 => h (h0 ▸ hb)
  rw [stringBytes, List.takeWhile_append_of_pos hxs, List.takeWhile_cons_of_neg (by simp), List.append_nil]

/-- Settles O56: a string is the buffer of its bytes. -/
theorem stringStopsAtFirstZero : Obligations.StringStopsAtFirstZero := by
  intro k j xs ys h
  rw [encIngestString, decIngestString, stringBytes_append_zero ys h]
  exact ⟨rfl, rfl⟩

end Sys2Proof.Machine
end

section
/-! SUPPORT. What one ENC_FLUSH and one ENC_INGEST do to their instance, row by row (R73, R75-R78, R81). -/

namespace Sys2Proof.Machine

/-! ### The "after" column of a table -/

@[simp] theorem EncInst.after_esc (e : EncInst) (p : PendingReg) (n : Byte) (bs : List Byte) :
    (e.after p n bs).esc = e.esc := rfl
@[simp] theorem EncInst.after_pending (e : EncInst) (p : PendingReg) (n : Byte) (bs : List Byte) :
    (e.after p n bs).pending = p := rfl
@[simp] theorem EncInst.after_runLength (e : EncInst) (p : PendingReg) (n : Byte) (bs : List Byte) :
    (e.after p n bs).runLength = n := rfl
@[simp] theorem EncInst.after_sink_out (e : EncInst) (p : PendingReg) (n : Byte) (bs : List Byte) :
    (e.after p n bs).sink.out = e.sink.out ++ bs := rfl

/-- Of two rows in a row the last registers stand, and both outputs are emitted in order. -/
@[simp] theorem EncInst.after_after (e : EncInst) (p p' : PendingReg) (n n' : Byte) (bs bs' : List Byte) :
    (e.after p n bs).after p' n' bs' = e.after p' n' (bs ++ bs') := by
  simp [EncInst.after, Nat.add_assoc]

/-- With its own registers and no output an instance is as it was. -/
@[simp] theorem EncInst.after_self (e : EncInst) : e.after e.pending e.runLength [] = e := by
  simp [EncInst.after]

/-! ### ENC_FLUSH -/

/-- A run that is open has bytes in it (R23). -/
theorem toNat_ne_zero {n : Byte} (h : n ≠ 0#8) : n.toNat ≠ 0 := BitVec.toNat_ne.mp h

/-- A run of more than 3 bytes, or of the escape byte, is framed (R73). -/
theorem flushBytes_frame {esc p : Byte} (n : Byte) (h : 3 < n.toNat ∨ p = esc) : flushBytes esc p n = [esc, p, n] := by
  rw [flushBytes_eq, if_pos h]

/-- A run of up to 3 bytes other than the escape byte is literal (R73). -/
theorem flushBytes_literal {esc p n : Byte} (hn : n.toNat ≤ 3) (hp : p ≠ esc) :
    flushBytes esc p n = List.replicate n.toNat p := by
  rw [flushBytes_eq, if_neg (not_or.mpr ⟨Nat.not_lt.mpr hn, hp⟩)]

/-- An open run is emitted and closed, with `pendingByte` kept (R73, D8). -/
theorem flushCore_open_after {e : EncInst} (h : e.runLength ≠ 0#8) (hheld : e.Held) :
    flushCore e = .ok (e.after e.pending 0#8 (flushBytes e.esc e.pending.byte e.runLength)) :=
  flushCore_open h (hheld h)

/-- Settles O20: with no open run FlushCore answers the same instance; an open run is emitted by R73's framing decision, of
which the table lists the cases. -/
theorem encFlushOutputTable : Obligations.EncFlushOutputTable := by
  intro s k e hk hheld
  refine onEnc_ok hk ?_
  by_cases h : e.runLength = 0#8
  · rw [flushCore_closed h, if_pos (by simp [h]), ← h, EncInst.after_self]
  · rw [flushCore_open_after h hheld, if_neg (toNat_ne_zero h)]
    by_cases hp : e.pending.byte = e.esc
    · rw [flushBytes_frame _ (.inr hp)]
      simp [hp]
    · by_cases hn : e.runLength.toNat ≤ 3
      · simp [flushBytes_literal hn hp, hp, hn]
      · simp [flushBytes_frame _ (.inl (Nat.not_le.mp hn)), hp, hn]

/-- A completed FlushCore leaves no run open (R81). -/
theorem runLength_of_flushCore {e e' : EncInst} (h : flushCore e = .ok e') : e'.runLength = 0#8 := by
  obtain ⟨h0, hf⟩ | ⟨-, -, hf⟩ | ⟨-, -, hf⟩ := flushCore_cases e
  all_goals simp only [hf, Except.ok.injEq, reduceCtorEq] at h
  · exact h ▸ h0
  · simp [← h]

/-- Replacing an ENC instance twice is replacing it by the last. -/
@[simp] theorem State.setEnc_setEnc (s : State) (k : Nat) (e e' : EncInst) :
    (s.setEnc k e).setEnc k e' = s.setEnc k e' := by
  simp [State.setEnc]

/-- Replacing an ENC instance by itself changes nothing. -/
theorem State.setEnc_self {s : State} {k : Nat} {e : EncInst} (h : s.encs[k]? = some e) : s.setEnc k e = s := by
  obtain ⟨hk, rfl⟩ := List.getElem?_eq_some_iff.mp h
  simp [State.setEnc]

/-- Settles O21: a flush closes the run, and FlushCore with no open run answers the same instance. -/
theorem secondFlushDoesNothing : Obligations.SecondFlushDoesNothing := by
  intro s t k h
  obtain ⟨-, -, -, -, e, e', -, hk', hf⟩ := onEnc_frame h
  have h0 : e'.runLength = 0#8 := runLength_of_flushCore hf
  refine ⟨⟨e', hk', h0⟩, (onEnc_ok hk' (flushCore_closed h0)).trans ?_⟩
  rw [State.setEnc_self hk']

/-! ### ENC_INGEST -/

/-- R76, case 1: a run is started. -/
theorem encIngestOn_start {e : EncInst} (b : Byte) (h : e.runLength = 0#8) :
    encIngestOn b e = .ok (e.after ⟨b, true⟩ 1#8 []) := by
  simpa [h, EncInst.after_eq, EncInst.startRun, PendingReg.write] using encIngestOn_cases b e

/-- R76, case 2: the open run is counted up below 255. -/
theorem encIngestOn_countUp {e : EncInst} (h : e.runLength ≠ 0#8) (hheld : e.Held) (hn : e.runLength + 1#8 ≠ 255#8) :
    encIngestOn e.pending.byte e = .ok (e.after e.pending (e.runLength + 1#8) []) := by
  simpa [h, hheld h, hn, EncInst.after_eq, EncInst.countUp] using encIngestOn_cases e.pending.byte e

/-- R76, case 2, and R74: the 255th byte of the open run emits its frame. -/
theorem encIngestOn_complete {e : EncInst} (hheld : e.Held) (hn : e.runLength = 254#8) :
    encIngestOn e.pending.byte e = .ok (e.after e.pending 0#8 [e.esc, e.pending.byte, 255#8]) := by
  have h : e.runLength ≠ 0#8 := by simp [hn]
  simpa [h, hheld h, hn, EncInst.after_eq, EncInst.closeRun, EncInst.countUp, flushBytes_eq]
    using encIngestOn_cases e.pending.byte e

/-- R76, case 3: another byte ends the open run, which is emitted, and starts a run. -/
theorem encIngestOn_change {e : EncInst} {b : Byte} (h : e.runLength ≠ 0#8) (hheld : e.Held) (hb : b ≠ e.pending.byte) :
    encIngestOn b e = .ok (e.after ⟨b, true⟩ 1#8 (flushBytes e.esc e.pending.byte e.runLength)) := by
  simpa [h, hheld h, hb, EncInst.after_eq, EncInst.startRun, EncInst.closeRun, PendingReg.write]
    using encIngestOn_cases b e

/-- Settles O19: the rows are R76's cases, case 2 below and at 255 apart, case 3 by R73's framing decision. -/
theorem encIngestTransitions : Obligations.EncIngestTransitions := by
  intro s k e b hk hheld hmax
  refine onEnc_ok hk ?_
  by_cases h : e.runLength = 0#8
  · rw [encIngestOn_start b h, if_pos (by simp [h])]
  rw [if_neg (toNat_ne_zero h)]
  by_cases hb : b = e.pending.byte
  · subst hb
    rw [if_pos rfl]
    by_cases h253 : e.runLength.toNat ≤ 253
    · rw [if_pos h253, encIngestOn_countUp h hheld (by bv_omega)]
    · rw [if_neg h253, encIngestOn_complete hheld (by bv_omega)]
  · rw [if_neg hb, encIngestOn_change h hheld hb]
    by_cases hn : e.runLength.toNat ≤ 3
    · by_cases hp : e.pending.byte = e.esc
      · rw [flushBytes_frame _ (.inr hp)]
        simp [hp, hn]
      · simp [flushBytes_literal hn hp, hp, hn]
    · simp [flushBytes_frame _ (.inl (Nat.not_le.mp hn)), hn]

/-- Settles O22: case 1 and case 2 below 255 emit nothing, case 2 at 255 a frame, and case 3 the ended run, which has as many
bytes as it is long only if it is literal. -/
theorem encIngestOutputLength : Obligations.EncIngestOutputLength := by
  intro s k e b hk hheld hmax
  have hnext {p : PendingReg} {n : Byte} {bs : List Byte} (hf : encIngestOn b e = .ok (e.after p n bs)) :
      exec (.encIngest k b) s = .next (s.setEnc k (e.after p n bs)) := onEnc_ok hk hf
  by_cases h : e.runLength = 0#8
  · exact ⟨_, _, [], hnext (encIngestOn_start b h), State.setEnc_getElem? hk, rfl, by simp [h]⟩
  by_cases hb : b = e.pending.byte
  · subst hb
    by_cases h254 : e.runLength = 254#8
    · exact ⟨_, _, _, hnext (encIngestOn_complete hheld h254), State.setEnc_getElem? hk, rfl, by simp [h254]⟩
    · have hne : e.runLength.toNat ≠ 254 := fun hn => h254 (BitVec.eq_of_toNat_eq hn)
      exact ⟨_, _, [], hnext (encIngestOn_countUp h hheld (by bv_omega)), State.setEnc_getElem? hk, rfl, by simp [hne]⟩
  · have hpos : 1 ≤ e.runLength.toNat := Nat.one_le_iff_ne_zero.mpr (toNat_ne_zero h)
    refine ⟨_, _, _, hnext (encIngestOn_change h hheld hb), State.setEnc_getElem? hk, rfl, ?_⟩
    by_cases hframe : 3 < e.runLength.toNat ∨ e.pending.byte = e.esc
    · simp [flushBytes_frame _ hframe, h, hb]
    · obtain ⟨hn, hp⟩ := not_or.mp hframe
      have hle : e.runLength.toNat ≤ 3 := Nat.not_lt.mp hn
      simp [flushBytes_literal hle hp, h, hb, hp, hle, hpos]

end Sys2Proof.Machine
end

section
/-! SUPPORT. A list of commands on one encoder (R72), runs (R74, R85, R87, R88) and the closed form of R83. -/

namespace Sys2Proof.Machine

/-! ### A list of commands on one encoder -/

/-- In every state whose `k`-th ENC instance is `e`, the commands complete, make it `e'` and change nothing else. -/
def EncInst.RunsTo (k : Nat) (cs : List Instr) (e e' : EncInst) : Prop :=
  ∀ s : State, s.encs[k]? = some e → execAll cs s = .next (s.setEnc k e')

theorem EncInst.RunsTo.trans {k : Nat} {cs ds : List Instr} {e e' e'' : EncInst} (h : e.RunsTo k cs e')
    (h' : e'.RunsTo k ds e'') : e.RunsTo k (cs ++ ds) e'' := by
  intro s hk
  rw [execAll_append, h s hk]
  simpa [andThen] using h' _ (State.setEnc_getElem? hk)

/-- A list of one command is that command. -/
theorem execAll_singleton (i : Instr) (s : State) : execAll [i] s = exec i s := by
  rw [execAll_cons]
  cases exec i s <;> rfl

theorem EncInst.runsTo_encIngest {k : Nat} {b : Byte} {e e' : EncInst} (h : encIngestOn b e = .ok e') :
    e.RunsTo k [.encIngest k b] e' := fun s hk => (execAll_singleton _ s).trans (onEnc_ok hk h)

theorem EncInst.runsTo_encFlush {k : Nat} {e e' : EncInst} (h : flushCore e = .ok e') :
    e.RunsTo k [.encFlush k] e' := fun s hk => (execAll_singleton _ s).trans (onEnc_ok hk h)

/-! ### A run -/

/-- From no open run, 1 to 254 equal bytes are held without output (R74). -/
theorem EncInst.runsTo_held {e : EncInst} (k : Nat) (x : Byte) {n : Nat} (h0 : e.runLength = 0#8) (h1 : 1 ≤ n)
    (hn : n ≤ 254) : e.RunsTo k (List.replicate n (.encIngest k x)) (e.after ⟨x, true⟩ (BitVec.ofNat 8 n) []) := by
  induction n, h1 using Nat.le_induction with
  | base => exact EncInst.runsTo_encIngest (encIngestOn_start x h0)
  | succ n h1 ih =>
    have hrun := ih (by omega)
    have hup := encIngestOn_countUp (e := e.after ⟨x, true⟩ (BitVec.ofNat 8 n) [])
      (by simp only [EncInst.after_runLength]; bv_omega) (fun _ => rfl) (by simp only [EncInst.after_runLength]; bv_omega)
    rw [EncInst.after_after] at hup
    rw [List.replicate_succ', BitVec.ofNat_add]
    exact hrun.trans (EncInst.runsTo_encIngest hup)

/-- From no open run, the 255th equal byte emits the frame (R74). -/
theorem EncInst.runsTo_frame255 {e : EncInst} (k : Nat) (x : Byte) (h0 : e.runLength = 0#8) :
    e.RunsTo k (List.replicate 255 (.encIngest k x)) (e.after ⟨x, true⟩ 0#8 [e.esc, x, 255#8]) := by
  have hlast := encIngestOn_complete (e := e.after ⟨x, true⟩ 254#8 []) (fun _ => rfl) rfl
  rw [EncInst.after_after] at hlast
  rw [List.replicate_succ']
  exact (EncInst.runsTo_held k x h0 (by decide) le_rfl).trans (EncInst.runsTo_encIngest hlast)

/-- Settles O23: the bytes up to the 254th are counted, and the 255th completes the run. -/
theorem runClosesAt255 : Obligations.RunClosesAt255 := by
  intro s k e x n hk h0 h1 hn
  by_cases h254 : n ≤ 254
  · rw [if_pos h254]
    exact EncInst.runsTo_held k x h0 h1 h254 s hk
  · obtain rfl : n = 255 := by omega
    exact EncInst.runsTo_frame255 k x h0 s hk

/-! ### The closed form of R83 -/

/-- The byte that continues the first run makes it longer by one (R19). -/
theorem runsOf_cons_same {x : Byte} {n : Nat} {S : List Byte} {rs : List (Byte × Nat)} (h : runsOf S = (x, n) :: rs) :
    runsOf (x :: S) = (x, n + 1) :: rs := by
  simp [runsOf, h]

/-- The first run is a run of the first byte (R19). -/
theorem runsOf_cons_eq (b : Byte) (S : List Byte) : ∃ n rs, runsOf (b :: S) = (b, n) :: rs := by
  simp only [runsOf]
  split
  · exact ⟨_, _, rfl⟩
  · split
    · next h => exact ⟨_, _, by rw [h]⟩
    · exact ⟨_, _, rfl⟩

/-- A byte other than the one that follows is a run of its own (R19). -/
theorem runsOf_cons_change {x : Byte} {S : List Byte} (h : S.head? ≠ some x) : runsOf (x :: S) = (x, 1) :: runsOf S := by
  cases S with
  | nil => rfl
  | cons b S =>
    obtain ⟨n, rs, hrs⟩ := runsOf_cons_eq b S
    have hxb : x ≠ b := fun hx => h (by simp [hx])
    rw [runsOf, hrs]
    simp [hxb]

/-- Equal bytes that continue the first run make it longer by their number (R19). -/
theorem runsOf_replicate_append_same {x : Byte} {n : Nat} {S : List Byte} {rs : List (Byte × Nat)}
    (h : runsOf S = (x, n) :: rs) (m : Nat) : runsOf (List.replicate m x ++ S) = (x, n + m) :: rs := by
  induction m with
  | zero => exact h
  | succ m ih => exact runsOf_cons_same ih

/-- Equal bytes before another byte, or at the end, are a run of their own (R19). -/
theorem runsOf_replicate_append_change {x : Byte} {S : List Byte} (h : S.head? ≠ some x) {m : Nat} (hm : 1 ≤ m) :
    runsOf (List.replicate m x ++ S) = (x, m) :: runsOf S := by
  obtain ⟨m, rfl⟩ := Nat.exists_eq_add_of_le hm
  rw [Nat.add_comm 1 m, List.replicate_succ', List.append_assoc, List.singleton_append,
    runsOf_replicate_append_same (runsOf_cons_change h), Nat.add_comm 1 m]

/-- A run of 1 to 254 bytes is one segment (R83). -/
theorem encRun_short (esc x : Byte) {n : Nat} (h1 : 1 ≤ n) (hn : n ≤ 254) : encRun esc x n = seg esc x n := by
  have hdiv : n / 255 = 0 := Nat.div_eq_of_lt (by omega)
  have hmod : n % 255 = n := Nat.mod_eq_of_lt (by omega)
  simp [encRun, hdiv, hmod, Nat.pos_of_ne_zero (Nat.one_le_iff_ne_zero.mp h1)]

/-- A segment of 255 bytes is a frame (R83, R88). -/
theorem seg_255 (esc x : Byte) : seg esc x 255 = [esc, x, 255#8] := if_pos (.inl (by decide))

/-- The first 255 bytes of a run are a segment of their own (R83). -/
theorem encRun_add_255 (esc x : Byte) (n : Nat) : encRun esc x (n + 255) = seg esc x 255 ++ encRun esc x n := by
  simp [encRun, List.replicate_succ]

/-- The closed form takes the run that ends before another byte as it stands (R83). -/
theorem encodeStream_replicate_append_change (esc : Byte) {x : Byte} {S : List Byte} (h : S.head? ≠ some x) {m : Nat}
    (hm : 1 ≤ m) : encodeStream esc (List.replicate m x ++ S) = encRun esc x m ++ encodeStream esc S := by
  rw [encodeStream, runsOf_replicate_append_change h hm]
  rfl

/-- The closed form starts anew after 255 equal bytes, whatever follows (R83). -/
theorem encodeStream_replicate_255_append (esc x : Byte) (S : List Byte) :
    encodeStream esc (List.replicate 255 x ++ S) = seg esc x 255 ++ encodeStream esc S := by
  by_cases h : S.head? = some x
  · obtain ⟨T, rfl⟩ := List.head?_eq_some_iff.mp h
    obtain ⟨n, rs, hrs⟩ := runsOf_cons_eq x T
    rw [encodeStream, encodeStream, runsOf_replicate_append_same hrs, hrs, List.flatMap_cons, List.flatMap_cons,
      encRun_add_255, List.append_assoc]
  · rw [encodeStream_replicate_append_change esc h (by decide), ← Nat.zero_add 255, encRun_add_255]
    simp [encRun]

/-- What FlushCore emits for an open run is its segment (R73, R83). -/
theorem flushBytes_eq_seg (esc p n : Byte) : flushBytes esc p n = seg esc p n.toNat := by
  rw [flushBytes_eq, seg, BitVec.ofNat_toNat, BitVec.setWidth_eq]

/-! ### The encoder meets the closed form -/

/-- The bytes an encoder has taken in and not emitted: its open run (R22, R23). -/
def EncInst.openBytes (e : EncInst) : List Byte := List.replicate e.runLength.toNat e.pending.byte

/-- One more byte of the open run. -/
theorem EncInst.openBytes_append_cons (e : EncInst) (S : List Byte) :
    e.openBytes ++ e.pending.byte :: S = List.replicate (e.runLength.toNat + 1) e.pending.byte ++ S := by
  simp [EncInst.openBytes, List.replicate_succ']

/-- The closed form of the open run and what follows it, where that is no byte of the run. -/
theorem encodeStream_openBytes_append {e : EncInst} (h : e.runLength ≠ 0#8) (hmax : e.runLength.toNat ≤ 254)
    {S : List Byte} (hS : S.head? ≠ some e.pending.byte) :
    encodeStream e.esc (e.openBytes ++ S) = flushBytes e.esc e.pending.byte e.runLength ++ encodeStream e.esc S := by
  have hpos : 1 ≤ e.runLength.toNat := Nat.one_le_iff_ne_zero.mpr (toNat_ne_zero h)
  rw [EncInst.openBytes, encodeStream_replicate_append_change e.esc hS hpos, encRun_short _ _ hpos hmax, flushBytes_eq_seg]

/-- The commands of R83 emit the closed form of the open run with `S` behind it, and leave no run open. -/
theorem EncInst.runsTo_encodeCommands {e : EncInst} (k : Nat) (S : List Byte) (hheld : e.Held)
    (hmax : e.runLength.toNat ≤ 254) :
    ∃ p, e.RunsTo k (encodeCommands k S) (e.after p 0#8 (encodeStream e.esc (e.openBytes ++ S))) := by
  induction S generalizing e with
  | nil =>
    refine ⟨e.pending, EncInst.runsTo_encFlush ?_⟩
    by_cases h : e.runLength = 0#8
    · have hout : encodeStream e.esc (e.openBytes ++ []) = [] := by simp [EncInst.openBytes, h, encodeStream, runsOf]
      rw [hout, flushCore_closed h, ← h, EncInst.after_self]
    · rw [encodeStream_openBytes_append h hmax (by simp), flushCore_open_after h hheld]
      simp [encodeStream, runsOf]
  | cons b S ih =>
    have hstep {p : PendingReg} {n : Byte} {bs : List Byte} (hf : encIngestOn b e = .ok (e.after p n bs))
        (hw : p.written = true) (hn : n.toNat ≤ 254)
        (hout : encodeStream e.esc (e.openBytes ++ b :: S) =
          bs ++ encodeStream e.esc (List.replicate n.toNat p.byte ++ S)) :
        ∃ p, e.RunsTo k (encodeCommands k (b :: S)) (e.after p 0#8 (encodeStream e.esc (e.openBytes ++ b :: S))) := by
      obtain ⟨p', hrest⟩ := ih (e := e.after p n bs) (fun _ => hw) hn
      refine ⟨p', ?_⟩
      rw [hout, ← EncInst.after_after e p p' n]
      exact (EncInst.runsTo_encIngest hf).trans hrest
    by_cases h : e.runLength = 0#8
    · exact hstep (encIngestOn_start b h) rfl (by decide) (by simp [EncInst.openBytes, h])
    by_cases hb : b = e.pending.byte
    · subst hb
      by_cases h254 : e.runLength = 254#8
      · refine hstep (encIngestOn_complete hheld h254) (hheld h) (by decide) ?_
        rw [EncInst.openBytes_append_cons, h254]
        exact (encodeStream_replicate_255_append _ _ S).trans (by rw [seg_255]; rfl)
      · have hne : e.runLength.toNat ≠ 254 := fun hn => h254 (BitVec.eq_of_toNat_eq hn)
        have hsucc : (e.runLength + 1#8).toNat = e.runLength.toNat + 1 := by bv_omega
        refine hstep (encIngestOn_countUp h hheld (by bv_omega)) (hheld h) (by omega) ?_
        rw [EncInst.openBytes_append_cons, hsucc, List.nil_append]
    · refine hstep (encIngestOn_change h hheld hb) rfl (by decide) ?_
      exact encodeStream_openBytes_append h hmax (by simpa using hb)

/-- From no open run, the commands of R83 emit the closed form of `S` and leave no run open. -/
theorem encodeCommands_emit {s : State} {k : Nat} {e : EncInst} (S : List Byte) (hk : s.encs[k]? = some e)
    (h0 : e.runLength = 0#8) :
    ∃ (t : State) (e' : EncInst), execAll (encodeCommands k S) s = .next t ∧ t.encs[k]? = some e' ∧
      e'.sink.out = e.sink.out ++ encodeStream e.esc S ∧ e'.runLength = 0#8 := by
  obtain ⟨p, hrun⟩ := EncInst.runsTo_encodeCommands (e := e) k S (fun h => absurd h0 h) (by simp [h0])
  exact ⟨_, _, hrun s hk, State.setEnc_getElem? hk, by simp [EncInst.openBytes, h0], rfl⟩

/-- Settles O27: no open run holds no byte, so `S` alone is what the commands encode. -/
theorem encoderMeetsClosedForm : Obligations.EncoderMeetsClosedForm :=
  fun _ _ _ S hk h0 => encodeCommands_emit S hk h0

/-! ### One run in the closed form -/

/-- The closed form of equal bytes is that of one run (R83). -/
theorem encodeStream_replicate (esc x : Byte) (n : Nat) : encodeStream esc (List.replicate n x) = encRun esc x n := by
  obtain rfl | hn := Nat.eq_zero_or_pos n
  · rfl
  · have hone := encodeStream_replicate_append_change esc (x := x) (S := []) (by simp) hn
    simpa [encodeStream, runsOf] using hone

/-- A run of 1 to 255 bytes is one segment (R83). -/
theorem encRun_eq_seg (esc x : Byte) {n : Nat} (h1 : 1 ≤ n) (hn : n ≤ 255) : encRun esc x n = seg esc x n := by
  by_cases h254 : n ≤ 254
  · exact encRun_short esc x h1 h254
  · obtain rfl : n = 255 := by omega
    exact (encRun_add_255 esc x 0).trans (List.append_nil _)

/-- Settles O24: the closed form of such a run is one segment. -/
theorem runEncodesAsSegment : Obligations.RunEncodesAsSegment := by
  intro s k e x n hk h0 h1 hn
  obtain ⟨t, e', ht, hk', hout, h0'⟩ := encodeCommands_emit (List.replicate n x) hk h0
  rw [encodeStream_replicate, encRun_eq_seg e.esc x h1 hn, seg] at hout
  refine ⟨t, e', ht, hk', h0', fun hx h3 => ?_, fun _ h3 => ?_, fun hx => ?_⟩
  · rw [hout, if_neg (not_or.mpr ⟨Nat.not_lt.mpr h3, hx⟩)]
  · rw [hout, if_pos (.inl h3)]
  · rw [hout, if_pos (.inr hx), hx]

/-- Settles O25: the closed form of equal bytes is that of one run, whose segments of 255 are frames. -/
theorem longRunSplitsAt255 : Obligations.LongRunSplitsAt255 := by
  intro s k e x n hk h0
  obtain ⟨t, e', ht, hk', hout, -⟩ := encodeCommands_emit (List.replicate n x) hk h0
  refine ⟨t, e', ht, hk', ?_⟩
  rw [hout, encodeStream_replicate, encRun, seg_255, List.append_assoc]
  by_cases hmod : n % 255 = 0
  · simp [hmod]
  · rw [if_pos (Nat.pos_of_ne_zero hmod), if_neg hmod, seg]

/-! ### The size of the encoded form -/

/-- A segment of at least one byte has at most three times as many (R89). -/
theorem seg_length_le (esc x : Byte) {m : Nat} (hm : 1 ≤ m) : (seg esc x m).length ≤ 3 * m := by
  unfold seg
  split
  · simp only [List.length_cons, List.length_nil]; omega
  · simp only [List.length_replicate]; omega

/-- A run is encoded in at most three times its length (R89). -/
theorem encRun_length_le (esc x : Byte) (n : Nat) : (encRun esc x n).length ≤ 3 * n := by
  have hdiv : n / 255 + n % 255 ≤ n := by omega
  have hrest : (if 0 < n % 255 then seg esc x (n % 255) else []).length ≤ 3 * (n % 255) := by
    split
    · next h => exact seg_length_le esc x h
    · simp
  simp only [encRun, seg_255, List.length_append, List.length_flatten, List.map_replicate, List.sum_replicate,
    List.length_cons, List.length_nil, smul_eq_mul]
  omega

/-- The maximal runs have together as many bytes as the sequence (R19). -/
theorem sum_runsOf (S : List Byte) : ((runsOf S).map Prod.snd).sum = S.length := by
  induction S with
  | nil => rfl
  | cons b S ih =>
    by_cases h : S.head? = some b
    · obtain ⟨T, rfl⟩ := List.head?_eq_some_iff.mp h
      obtain ⟨n, rs, hrs⟩ := runsOf_cons_eq b T
      rw [hrs, List.map_cons, List.sum_cons] at ih
      rw [runsOf_cons_same hrs, List.map_cons, List.sum_cons, List.length_cons, ← ih]
      exact Nat.add_right_comm n 1 _
    · rw [runsOf_cons_change h, List.map_cons, List.sum_cons, ih, List.length_cons, Nat.add_comm]

/-- The encoded form has at most three times as many bytes (R89). -/
theorem encodeStream_length_le (esc : Byte) (S : List Byte) : (encodeStream esc S).length ≤ 3 * S.length := by
  rw [encodeStream, List.length_flatMap, ← sum_runsOf S, ← List.sum_map_mul_left]
  exact List.sum_le_sum fun r _ => encRun_length_le esc r.1 r.2

/-- Settles O28: the output is the closed form, and that of one escape byte is a frame. -/
theorem encodedSizeBound : Obligations.EncodedSizeBound := by
  intro s k e S hk h0
  obtain ⟨t, e', ht, hk', hout, -⟩ := encodeCommands_emit S hk h0
  refine ⟨t, e', ht, hk', ?_, ?_⟩
  · simpa [hout] using encodeStream_length_le e.esc S
  · rintro rfl
    have hframe : encodeStream e.esc [e.esc] = [e.esc, e.esc, 1#8] := by
      rw [← List.replicate_one, encodeStream_replicate, encRun_short _ _ le_rfl (by decide), seg, if_pos (.inr rfl)]
    simp [hout, hframe]

end Sys2Proof.Machine
end

section
/-! SUPPORT. Steps that drive no command and no reset into an instance (R82, R98), and chunks of input (R84, R100). -/

namespace Sys2Proof.Machine

/-! ### What a step leaves alone at a port it does not drive -/

/-- From `s` to `t` the instance on `p` keeps its registers, its ESC and its output stream. -/
def State.KeptAt (p : Port) (s t : State) : Prop :=
  t.registersAt? p = s.registersAt? p ∧ t.escAt? p = s.escAt? p ∧ t.outAt? p = s.outAt? p

/-- Where the `k`-th ENC instance is the same, all of it is kept. -/
theorem State.keptAt_enc_of_same {s t : State} {k : Nat} (h : t.encs[k]? = s.encs[k]?) : s.KeptAt (.enc k) t := by
  simp [State.KeptAt, State.registersAt?, State.escAt?, State.outAt?, State.sinkAt?, h]

/-- Where the `j`-th DEC instance is the same, all of it is kept. -/
theorem State.keptAt_dec_of_same {s t : State} {j : Nat} (h : t.decs[j]? = s.decs[j]?) : s.KeptAt (.dec j) t := by
  simp [State.KeptAt, State.registersAt?, State.escAt?, State.outAt?, State.sinkAt?, h]

/-- A field of the elements that a change of one of them does not touch. -/
theorem getElem?_modify_map_of_eq {α β : Type} {π : α → β} {f : α → α} (h : ∀ a, π (f a) = π a) (l : List α)
    (k m : Nat) : (l.modify k f)[m]?.map π = l[m]?.map π := by
  rw [getElem?_modify_map (g := id) h]
  simp

/-- A change of one port that keeps its stream keeps every instance's registers, ESC and stream (R45). -/
theorem State.keptAt_onSinkAt {f : SinkPort → SinkPort} (hf : ∀ q, (f q).out = q.out) (p p' : Port) (s : State) :
    s.KeptAt p (s.onSinkAt p' f) := by
  have hout : (s.onSinkAt p' f).outAt? p = s.outAt? p := by
    rw [State.outAt?, State.sinkAt?_onSinkAt_eq]
    split
    · simp [State.outAt?, Function.comp_def, hf]
    · rfl
  cases p with
  | enc k =>
    cases p' with
    | enc m =>
      exact ⟨getElem?_modify_map_of_eq (by intro; rfl) s.encs m k, getElem?_modify_map_of_eq (by intro; rfl) s.encs m k, hout⟩
    | dec m => exact ⟨rfl, rfl, hout⟩
  | dec j =>
    cases p' with
    | enc m => exact ⟨rfl, rfl, hout⟩
    | dec m =>
      exact ⟨getElem?_modify_map_of_eq (by intro; rfl) s.decs m j, getElem?_modify_map_of_eq (by intro; rfl) s.decs m j, hout⟩

/-- An output cycle of every sink keeps every instance's registers, ESC and stream (R45). -/
theorem State.keptAt_transferAll (p : Port) (s : State) : s.KeptAt p s.transferAll := by
  cases p <;>
    simp [State.KeptAt, State.registersAt?, State.escAt?, State.outAt?, State.sinkAt?, Function.comp_def]

/-- A reset of another instance leaves the instance alone (R133). -/
theorem State.keptAt_resetAt {p p' : Port} (h : p' ≠ p) (s : State) : s.KeptAt p (s.resetAt p') := by
  cases p with
  | enc k =>
    apply State.keptAt_enc_of_same
    cases p' with
    | enc m => exact List.getElem?_modify_ne _ _ (by simpa using h)
    | dec m => rfl
  | dec j =>
    apply State.keptAt_dec_of_same
    cases p' with
    | enc m => rfl
    | dec m => exact List.getElem?_modify_ne _ _ (by simpa using h)

/-- A command of another instance leaves the instance alone (R37). -/
theorem State.keptAt_exec {p : Port} {i : Instr} {s t : State} (hp : i.port ≠ p) (h : exec i s = .next t) :
    s.KeptAt p t := by
  cases hi : i.port with
  | enc m =>
    obtain ⟨f, hf⟩ := exec_eq_onEnc hi
    obtain ⟨-, hdecs, -, hoth, -⟩ := onEnc_frame ((hf s).symm.trans h)
    cases p with
    | enc k => exact State.keptAt_enc_of_same (hoth k fun hkm => hp (hi.trans (by rw [hkm])))
    | dec j => exact State.keptAt_dec_of_same (by rw [hdecs])
  | dec m =>
    obtain ⟨f, hf⟩ := exec_eq_onDec hi
    obtain ⟨-, hencs, -, hoth, -⟩ := onDec_frame ((hf s).symm.trans h)
    cases p with
    | enc k => exact State.keptAt_enc_of_same (by rw [hencs])
    | dec j => exact State.keptAt_dec_of_same (hoth j fun hjm => hp (hi.trans (by rw [hjm])))

/-- An input that is no reset and no command at `p` leaves the instance there its registers, ESC and stream. -/
theorem State.keptAt_perform {p : Port} {x : Input} {s t : State} (hreset : x.isResetAt p = false)
    (hcmd : x.isCommandAt p = false) (h : perform x s = .next t) : s.KeptAt p t := by
  obtain ⟨p', w, i, rfl, hd, hi⟩ | ⟨p', w, -, rfl, -, -, rfl⟩ | ⟨p', w, -, rfl, -, rfl⟩ | ⟨p', -, -, -, rfl⟩ |
    ⟨p', r, -, -, -, rfl⟩ := perform_cases h
  · have hp : p' ≠ p := by simpa [Input.isCommandAt] using hcmd
    exact State.keptAt_exec (by rwa [port_of_decode hd]) hi
  · exact State.keptAt_resetAt (by simpa [Input.isResetAt] using hreset) s
  · exact State.keptAt_resetAt (by simpa [Input.isResetAt] using hreset) s
  · exact State.keptAt_onSinkAt SinkPort.transfer_out p p' s
  · exact State.keptAt_onSinkAt (SinkPort.setReady_out · r) p p' s

/-- A step that neither resets an instance nor takes the word offered on its port keeps its registers, ESC and stream. -/
theorem State.keptAt_step {p : Port} {s t : State} (h : step s = .next t) (hd : ¬ s.DrivenNext p) : s.KeptAt p t := by
  obtain ⟨-, -, rfl⟩ | ⟨pre, x, post, -, hn, -, -, hx⟩ := step_cases h
  · exact State.keptAt_transferAll p s
  · have hx' : ¬ (x.isResetAt p = true ∨ x.isCommandAt p = true) := fun hor => hd ⟨_, hn, hor⟩
    obtain ⟨hreset, hcmd⟩ := not_or.mp hx'
    have hkept := State.keptAt_perform (by simpa using hreset) (by simpa using hcmd) hx
    cases p <;> exact hkept

/-- With nothing offered a step is an output cycle of every sink. -/
theorem step_of_no_inputs {s : State} (h : s.inputs = []) : step s = .next s.transferAll :=
  step_no_input (by rw [h]; rfl)

/-- Settles O15: a step that does not drive the instance keeps it, and with nothing offered every step is an output cycle of
every sink, which moves waiting bytes only. -/
theorem nothingEmittedWithoutCommand : Obligations.NothingEmittedWithoutCommand := by
  refine ⟨fun s t p h hd => State.keptAt_step h hd, fun s n hs => ?_⟩
  induction n generalizing s with
  | zero => exact ⟨s, rfl, hs, rfl, rfl⟩
  | succ n ih =>
    obtain ⟨t, ht, hin, hencs, hdecs⟩ := ih s.transferAll hs
    refine ⟨t, ?_, hin, ?_, ?_⟩
    · rw [runSteps_succ, step_of_no_inputs hs]
      exact ht
    · simpa [Function.comp_def] using hencs
    · simpa [Function.comp_def] using hdecs

/-! ### Chunks -/

/-- Going on twice is going on with both. -/
theorem andThen_assoc (o : Host.Outcome State Fault Refusal) (f g : State → Host.Outcome State Fault Refusal) :
    andThen (andThen o f) g = andThen o fun s => andThen (f s) g := by
  cases o <;> rfl

/-- Chunks of commands, one after another, go on from an outcome as the commands of all of them do. -/
theorem foldl_andThen_execAll (f : Byte → Instr) (chunks : List (List Byte)) (o : Host.Outcome State Fault Refusal) :
    chunks.foldl (fun o c => andThen o (execAll (c.map f))) o = andThen o (execAll (chunks.flatten.map f)) := by
  induction chunks generalizing o with
  | nil => cases o <;> rfl
  | cons c cs ih =>
    rw [List.foldl_cons, ih, andThen_assoc, List.flatten_cons, List.map_append]
    congr 1
    funext s
    exact (execAll_append _ _ s).symm

/-- Settles O55: a buffer is one command per byte (R68). -/
theorem chunksAgreeWithWhole : Obligations.ChunksAgreeWithWhole :=
  ⟨fun s k chunks => foldl_andThen_execAll (.encIngest k) chunks (.next s),
    fun s j chunks => foldl_andThen_execAll (.decIngest j) chunks (.next s)⟩

end Sys2Proof.Machine
end

section
/-! SUPPORT. What a decoder does with a list of bytes: the table of R91, the recursion of R102 and a truncated frame (R98). -/

namespace Sys2Proof.Machine

/-! ### The rows of the table -/

@[simp] theorem DecInst.after_esc (d : DecInst) (ph : Phase) (p : PendingReg) (bs : List Byte) :
    (d.after ph p bs).esc = d.esc := rfl
@[simp] theorem DecInst.after_phase (d : DecInst) (ph : Phase) (p : PendingReg) (bs : List Byte) :
    (d.after ph p bs).phase = ph := rfl
@[simp] theorem DecInst.after_pending (d : DecInst) (ph : Phase) (p : PendingReg) (bs : List Byte) :
    (d.after ph p bs).pending = p := rfl
@[simp] theorem DecInst.after_sink_out (d : DecInst) (ph : Phase) (p : PendingReg) (bs : List Byte) :
    (d.after ph p bs).sink.out = d.sink.out ++ bs := rfl

/-- Of two rows in a row the last registers stand, and both outputs are emitted in order. -/
@[simp] theorem DecInst.after_after (d : DecInst) (ph ph' : Phase) (p p' : PendingReg) (bs bs' : List Byte) :
    (d.after ph p bs).after ph' p' bs' = d.after ph' p' (bs ++ bs') := by
  simp [DecInst.after, Nat.add_assoc]

/-- With its own registers and no output an instance is as it was. -/
@[simp] theorem DecInst.after_self (d : DecInst) : d.after d.phase d.pending [] = d := by
  simp [DecInst.after]

/-- R91, Normal, the escape byte: a frame begins. -/
theorem decIngestOn_esc_after {d : DecInst} (h : d.phase = .normal) :
    decIngestOn d.esc d = .ok (d.after .sawEscape d.pending []) := by
  simp [decIngestOn_esc h, DecInst.after_eq]

/-- R91, Normal, another byte: it is emitted. -/
theorem decIngestOn_literal {d : DecInst} {b : Byte} (h : d.phase = .normal) (hb : b ≠ d.esc) :
    decIngestOn b d = .ok (d.after .normal d.pending [b]) := by
  simpa [h, hb, DecInst.after_eq] using decIngestOn_cases b d

/-- R91, SawEscape: the run byte is captured. -/
theorem decIngestOn_runByte_after {d : DecInst} (b : Byte) (h : d.phase = .sawEscape) :
    decIngestOn b d = .ok (d.after .sawEscapeAndByte ⟨b, true⟩ []) := by
  simp [decIngestOn_runByte b h, DecInst.after_eq, PendingReg.write]

/-- R91, SawEscapeAndByte: the captured byte is emitted as often as the count says; a count of 0 does not need it (R93). -/
theorem decIngestOn_count_after {d : DecInst} {b : Byte} (h : d.phase = .sawEscapeAndByte)
    (hheld : b ≠ 0#8 → d.pending.written = true) :
    decIngestOn b d = .ok (d.after .normal d.pending (List.replicate b.toNat d.pending.byte)) := by
  have hb : b = 0#8 ∨ d.pending.written = true := or_iff_not_imp_left.mpr hheld
  have hmissing : ¬ (b ≠ 0#8 ∧ d.pending.written = false) := by simpa using hheld
  obtain ⟨hph, -⟩ | ⟨hph, -⟩ | ⟨hph, -⟩ | ⟨-, -, hf⟩ | ⟨-, h0, hp, -⟩ := decIngestOn_cases b d
  · simp [h] at hph
  · simp [h] at hph
  · simp [h] at hph
  · exact hf
  · exact absurd ⟨h0, hp⟩ hmissing

/-- Settles O29: in each phase the command answers its row of the table. -/
theorem decIngestTransitions : Obligations.DecIngestTransitions := by
  intro s j d b hj hheld
  refine onDec_ok hj ?_
  cases hph : d.phase with
  | normal =>
    by_cases hb : b = d.esc
    · subst hb
      simpa using decIngestOn_esc_after hph
    · simpa [hb] using decIngestOn_literal hph hb
  | sawEscape => exact decIngestOn_runByte_after b hph
  | sawEscapeAndByte => exact decIngestOn_count_after hph (hheld hph)

/-- Settles O32: the lengths of the outputs in the rows of the table. -/
theorem decIngestOutputLength : Obligations.DecIngestOutputLength := by
  intro s j d b hj hheld
  have hnext {ph : Phase} {p : PendingReg} {bs : List Byte} (hf : decIngestOn b d = .ok (d.after ph p bs)) :
      exec (.decIngest j b) s = .next (s.setDec j (d.after ph p bs)) := onDec_ok hj hf
  cases hph : d.phase with
  | normal =>
    by_cases hb : b = d.esc
    · subst hb
      exact ⟨_, _, [], hnext (decIngestOn_esc_after hph), State.setDec_getElem? hj, rfl, by simp⟩
    · exact ⟨_, _, [b], hnext (decIngestOn_literal hph hb), State.setDec_getElem? hj, rfl, by simp [hb]⟩
  | sawEscape => exact ⟨_, _, [], hnext (decIngestOn_runByte_after b hph), State.setDec_getElem? hj, rfl, by simp⟩
  | sawEscapeAndByte =>
    exact ⟨_, _, _, hnext (decIngestOn_count_after hph (hheld hph)), State.setDec_getElem? hj, rfl, by simp⟩

/-! ### The recursion of R102 -/

/-- In every state whose `j`-th DEC instance is `d`, the bytes are ingested, make it `d'` and change nothing else. -/
def DecInst.RunsTo (j : Nat) (T : List Byte) (d d' : DecInst) : Prop :=
  ∀ s : State, s.decs[j]? = some d → execAll (decIngestBuffer j T) s = .next (s.setDec j d')

/-- Replacing a DEC instance by itself changes nothing. -/
theorem State.setDec_self {s : State} {j : Nat} {d : DecInst} (h : s.decs[j]? = some d) : s.setDec j d = s := by
  obtain ⟨hj, rfl⟩ := List.getElem?_eq_some_iff.mp h
  simp [State.setDec]

theorem DecInst.runsTo_nil (j : Nat) (d : DecInst) : d.RunsTo j [] d :=
  fun _ hj => congrArg Host.Outcome.next (State.setDec_self hj).symm

theorem DecInst.RunsTo.cons {j : Nat} {b : Byte} {T : List Byte} {d d' d'' : DecInst} (hf : decIngestOn b d = .ok d')
    (h : d'.RunsTo j T d'') : d.RunsTo j (b :: T) d'' := by
  intro s hj
  rw [execAll_decIngestBuffer_cons T hj hf, h _ (State.setDec_getElem? hj), State.setDec_setDec]

/-- The bytes of `T` emit what the recursion of R102 gives and end in the phase it ends in. -/
theorem DecInst.runsTo_decodeFrom {d : DecInst} (j : Nat) (T : List Byte) (hheld : d.Held) :
    ∃ p, d.RunsTo j T
      (d.after (finalPhase d.esc d.phase T) p (decodeFrom d.esc d.phase d.pending.byte T)) := by
  induction T generalizing d with
  | nil =>
    refine ⟨d.pending, ?_⟩
    rw [finalPhase, decodeFrom, DecInst.after_self]
    exact DecInst.runsTo_nil j d
  | cons b T ih =>
    have hstep {ph : Phase} {p : PendingReg} {bs : List Byte} (hf : decIngestOn b d = .ok (d.after ph p bs))
        (hheld' : (d.after ph p bs).Held) :
        ∃ p', d.RunsTo j (b :: T) (d.after (finalPhase d.esc ph T) p' (bs ++ decodeFrom d.esc ph p.byte T)) := by
      obtain ⟨p', hrest⟩ := ih hheld'
      rw [DecInst.after_after] at hrest
      exact ⟨p', .cons hf hrest⟩
    cases hph : d.phase with
    | normal =>
      by_cases hb : b = d.esc
      · subst hb
        simpa [finalPhase, decodeFrom] using hstep (decIngestOn_esc_after hph) (by simp [DecInst.Held])
      · simpa [finalPhase, decodeFrom, hb] using hstep (decIngestOn_literal hph hb) (by simp [DecInst.Held])
    | sawEscape => exact hstep (decIngestOn_runByte_after b hph) (fun _ => rfl)
    | sawEscapeAndByte => exact hstep (decIngestOn_count_after hph fun _ => hheld hph) (by simp [DecInst.Held])

/-- Settles O33: the recursion is followed byte by byte. -/
theorem decoderMeetsRecursion : Obligations.DecoderMeetsRecursion := by
  intro s j d T hj hheld
  obtain ⟨p, hrun⟩ := DecInst.runsTo_decodeFrom j T hheld
  exact ⟨_, _, hrun s hj, State.setDec_getElem? hj, rfl, rfl⟩

/-! ### A truncated frame -/

/-- From `s` to `t` the `j`-th DEC instance is changed at most in its output port, which keeps its stream. -/
def State.OnlySinkMoves (j : Nat) (s t : State) : Prop :=
  ∃ f : SinkPort → SinkPort, (∀ q, (f q).out = q.out) ∧ t.decs[j]? = s.decs[j]?.map (DecInst.onSink f)

theorem State.onlySinkMoves_of_same {j : Nat} {s t : State} (h : t.decs[j]? = s.decs[j]?) : s.OnlySinkMoves j t := by
  have hid : DecInst.onSink id = id := rfl
  exact ⟨id, fun _ => rfl, by rw [h, hid, Option.map_id, id]⟩

theorem State.OnlySinkMoves.trans {j : Nat} {s t u : State} (h : s.OnlySinkMoves j t) (h' : t.OnlySinkMoves j u) :
    s.OnlySinkMoves j u := by
  obtain ⟨f, hf, ht⟩ := h
  obtain ⟨g, hg, hu⟩ := h'
  exact ⟨g ∘ f, fun q => (hg (f q)).trans (hf q), by rw [hu, ht, Option.map_map]; rfl⟩

theorem State.onlySinkMoves_transferAll (j : Nat) (s : State) : s.OnlySinkMoves j s.transferAll :=
  ⟨SinkPort.transfer, SinkPort.transfer_out, by simp⟩

/-- A change of an output port that keeps its stream. -/
theorem State.onlySinkMoves_onSinkAt {f : SinkPort → SinkPort} (hf : ∀ q, (f q).out = q.out) (j : Nat) (p : Port)
    (s : State) : s.OnlySinkMoves j (s.onSinkAt p f) := by
  cases p with
  | enc k => exact State.onlySinkMoves_of_same rfl
  | dec m =>
    by_cases hm : m = j
    · subst hm
      exact ⟨f, hf, by simp [State.onSinkAt]⟩
    · exact State.onlySinkMoves_of_same (List.getElem?_modify_ne _ _ hm)

/-- A reset of another instance leaves the decoder alone (R133). -/
theorem State.decs_resetAt_of_ne {j : Nat} {p : Port} (h : p ≠ .dec j) (s : State) :
    (s.resetAt p).decs[j]? = s.decs[j]? := by
  cases p with
  | enc k => rfl
  | dec m => exact List.getElem?_modify_ne _ _ (by simpa using h)

/-- A command of another instance leaves the decoder alone (R37). -/
theorem exec_decs_of_ne {j : Nat} {i : Instr} {s t : State} (hp : i.port ≠ .dec j) (h : exec i s = .next t) :
    t.decs[j]? = s.decs[j]? := by
  cases hi : i.port with
  | enc k =>
    obtain ⟨f, hf⟩ := exec_eq_onEnc hi
    obtain ⟨-, hdecs, -⟩ := onEnc_frame ((hf s).symm.trans h)
    rw [hdecs]
  | dec m =>
    obtain ⟨f, hf⟩ := exec_eq_onDec hi
    obtain ⟨-, -, -, hoth, -⟩ := onDec_frame ((hf s).symm.trans h)
    exact hoth j fun hjm => hp (by rw [hi, hjm])

/-- An input that is no reset and no command of the decoder moves at most waiting bytes of it. -/
theorem State.onlySinkMoves_perform {j : Nat} {x : Input} {s t : State} (hreset : x.isResetAt (.dec j) = false)
    (hcmd : x.isCommandAt (.dec j) = false) (h : perform x s = .next t) : s.OnlySinkMoves j t := by
  obtain ⟨p, w, i, rfl, hd, hi⟩ | ⟨p, w, -, rfl, -, -, rfl⟩ | ⟨p, w, -, rfl, -, rfl⟩ | ⟨p, -, -, -, rfl⟩ |
    ⟨p, r, -, -, -, rfl⟩ := perform_cases h
  · have hp : p ≠ .dec j := by simpa [Input.isCommandAt] using hcmd
    exact State.onlySinkMoves_of_same (exec_decs_of_ne (by rwa [port_of_decode hd]) hi)
  · exact State.onlySinkMoves_of_same (State.decs_resetAt_of_ne (by simpa [Input.isResetAt] using hreset) s)
  · exact State.onlySinkMoves_of_same (State.decs_resetAt_of_ne (by simpa [Input.isResetAt] using hreset) s)
  · exact State.onlySinkMoves_onSinkAt SinkPort.transfer_out j p s
  · exact State.onlySinkMoves_onSinkAt (SinkPort.setReady_out · r) j p s

/-- A step that neither resets the decoder nor takes the word offered on its port. -/
theorem State.onlySinkMoves_step {j : Nat} {s t : State} (h : step s = .next t) (hd : ¬ s.DrivenNext (.dec j)) :
    s.OnlySinkMoves j t := by
  obtain ⟨-, -, rfl⟩ | ⟨pre, x, post, -, hn, -, -, hx⟩ := step_cases h
  · exact State.onlySinkMoves_transferAll j s
  · have hx' : ¬ (x.isResetAt (.dec j) = true ∨ x.isCommandAt (.dec j) = true) := fun hor => hd ⟨_, hn, hor⟩
    obtain ⟨hreset, hcmd⟩ := not_or.mp hx'
    have hmoves := State.onlySinkMoves_perform (by simpa using hreset) (by simpa using hcmd) hx
    exact hmoves

/-- Any number of such steps. -/
theorem State.onlySinkMoves_runSteps {j n : Nat} {s t : State}
    (hd : ∀ (m : Nat) (u : State), m < n → runSteps m s = .next u → ¬ u.DrivenNext (.dec j))
    (h : runSteps n s = .next t) : s.OnlySinkMoves j t := by
  induction n generalizing s with
  | zero =>
    obtain rfl : s = t := by simpa using h
    exact State.onlySinkMoves_of_same rfl
  | succ n ih =>
    rw [runSteps_succ, andThen_eq_next_iff] at h
    obtain ⟨u, hu, hrest⟩ := h
    have hd' : ∀ (m : Nat) (v : State), m < n → runSteps m u = .next v → ¬ v.DrivenNext (.dec j) := fun m v hm hv =>
      hd (m + 1) v (Nat.succ_lt_succ hm) (by rw [runSteps_succ, andThen_eq_next_iff]; exact ⟨u, hu, hv⟩)
    exact (State.onlySinkMoves_step hu (hd 0 s n.succ_pos rfl)).trans (ih hd' hrest)

/-- Settles O30: the first two bytes of a frame only change the phase and capture the run byte, and steps that do not drive
the decoder move at most waiting bytes of it. -/
theorem truncatedFrameSuspends : Obligations.TruncatedFrameSuspends := by
  refine ⟨fun s j d x hj hph => ⟨?_, ?_⟩, fun s t j d n hj _ hd hrun => ?_⟩
  · have hone := DecInst.RunsTo.cons (decIngestOn_esc hph) (DecInst.runsTo_nil j _)
    exact ⟨_, _, hone s hj, State.setDec_getElem? hj, rfl, rfl⟩
  · have htwo := DecInst.RunsTo.cons (decIngestOn_esc hph) (.cons (decIngestOn_runByte x rfl) (DecInst.runsTo_nil j _))
    exact ⟨_, _, htwo s hj, State.setDec_getElem? hj, rfl, rfl, rfl⟩
  · obtain ⟨f, hf, ht⟩ := State.onlySinkMoves_runSteps hd hrun
    exact ⟨d.onSink f, by rw [ht, hj]; rfl, rfl, rfl, hf d.sink⟩

end Sys2Proof.Machine
end

section
/-! SUPPORT. What streams decode to (R102, R103), and an encoder and a decoder together (R101, R104, R105). -/

namespace Sys2Proof.Machine

/-! ### Streams that leave a decoder at rest -/

/-- Only phase SawEscapeAndByte has a captured byte: elsewhere the recursion does not use it (R102). -/
theorem decodeFrom_congr_captured (esc x y : Byte) {ph : Phase} (T : List Byte) (h : ph ≠ .sawEscapeAndByte) :
    decodeFrom esc ph x T = decodeFrom esc ph y T := by
  induction T generalizing ph with
  | nil => simp only [decodeFrom]
  | cons b T ih =>
    cases ph with
    | normal => simp only [decodeFrom, ih (ph := .sawEscape) (by decide), ih (ph := .normal) (by decide)]
    | sawEscape => rfl
    | sawEscapeAndByte => exact absurd rfl h

/-- The recursion goes on from the phase in which the first part of the bytes ends. -/
theorem finalPhase_append (esc : Byte) (ph : Phase) (T U : List Byte) :
    finalPhase esc ph (T ++ U) = finalPhase esc (finalPhase esc ph T) U := by
  induction T generalizing ph with
  | nil => rw [List.nil_append, finalPhase]
  | cons b T ih =>
    cases ph with
    | normal =>
      simp only [List.cons_append, finalPhase, ih]
      split <;> rfl
    | sawEscape => exact ih _
    | sawEscapeAndByte => exact ih _

/-- What follows bytes that leave the decoder at rest is decoded by itself (R103). -/
theorem decodeFrom_append_of_rest {esc x : Byte} {ph : Phase} {T : List Byte} (U : List Byte)
    (h : finalPhase esc ph T = .normal) : decodeFrom esc ph x (T ++ U) = decodeFrom esc ph x T ++ decodeStream esc U := by
  induction T generalizing ph x with
  | nil =>
    obtain rfl : ph = .normal := by simpa only [finalPhase] using h
    simpa only [decodeFrom, List.nil_append, decodeStream] using decodeFrom_congr_captured esc x 0x00#8 U (by decide)
  | cons b T ih =>
    cases ph with
    | normal =>
      by_cases hb : b = esc
      · simp only [finalPhase, if_pos hb] at h
        simpa only [List.cons_append, decodeFrom, if_pos hb] using ih h
      · simp only [finalPhase, if_neg hb] at h
        simp only [List.cons_append, decodeFrom, if_neg hb, ih h]
    | sawEscape => exact ih h
    | sawEscapeAndByte =>
      simp only [finalPhase] at h
      simp only [List.cons_append, decodeFrom, ih h, List.append_assoc]

/-- By the recursion of R102, a decoder at rest makes `S` of the bytes of `T` and is at rest again. -/
def Decodes (esc : Byte) (T S : List Byte) : Prop := finalPhase esc .normal T = .normal ∧ decodeStream esc T = S

theorem Decodes.nil (esc : Byte) : Decodes esc [] [] := ⟨rfl, rfl⟩

theorem Decodes.append {esc : Byte} {T U S R : List Byte} (hT : Decodes esc T S) (hU : Decodes esc U R) :
    Decodes esc (T ++ U) (S ++ R) := by
  obtain ⟨hTrest, hTout⟩ := hT
  obtain ⟨hUrest, hUout⟩ := hU
  refine ⟨by rw [finalPhase_append, hTrest, hUrest], ?_⟩
  rw [decodeStream, decodeFrom_append_of_rest U hTrest, ← decodeStream, hTout, hUout]

theorem Decodes.flatMap {α : Type} {esc : Byte} {l : List α} {f g : α → List Byte} (h : ∀ a ∈ l, Decodes esc (f a) (g a)) :
    Decodes esc (l.flatMap f) (l.flatMap g) := by
  induction l with
  | nil => exact .nil esc
  | cons a l ih =>
    rw [List.flatMap_cons, List.flatMap_cons]
    exact (h a List.mem_cons_self).append (ih fun b hb => h b (List.mem_cons_of_mem a hb))

/-- A byte other than ESC decodes to itself (R91). -/
theorem decodes_literal {esc x : Byte} (h : x ≠ esc) : Decodes esc [x] [x] := by
  simp [Decodes, finalPhase, decodeStream, decodeFrom, h]

/-- A literal run decodes to itself (R66). -/
theorem decodes_replicate {esc x : Byte} (h : x ≠ esc) (n : Nat) :
    Decodes esc (List.replicate n x) (List.replicate n x) := by
  induction n with
  | zero => exact .nil esc
  | succ n ih => exact (decodes_literal h).append ih

/-- A frame decodes to its run (R66). -/
theorem decodes_frame (esc x n : Byte) : Decodes esc [esc, x, n] (List.replicate n.toNat x) := by
  simp [Decodes, finalPhase, decodeStream, decodeFrom]

/-- The bytes of a legal item decode to its plain bytes (R103). -/
theorem Item.decodes_wire {esc : Byte} {it : Item} (h : it.legal esc = true) : Decodes esc (it.wire esc) it.plain := by
  cases it with
  | lit x n =>
    obtain ⟨⟨hx, -⟩, -⟩ : (x ≠ esc ∧ 1 ≤ n) ∧ n ≤ 3 := by simpa [Item.legal] using h
    exact decodes_replicate hx n
  | frame x n =>
    obtain ⟨⟨-, hn⟩, -⟩ : (1 ≤ n ∧ n ≤ 255) ∧ (4 ≤ n ∨ x = esc) := by simpa [Item.legal] using h
    have hcount : (BitVec.ofNat 8 n).toNat = n := by rw [BitVec.toNat_ofNat]; omega
    simpa [Item.wire, Item.plain, hcount] using decodes_frame esc x (BitVec.ofNat 8 n)

/-- What FlushCore emits decodes to the open run (R73). -/
theorem decodes_flushBytes (esc p : Byte) {n : Byte} (hn : n ≠ 0#8) :
    Decodes esc (flushBytes esc p n) (List.replicate n.toNat p) := by
  rw [← runItem_wire, ← runItem_plain esc p n]
  exact Item.decodes_wire (runItem_legal esc p hn)

/-- At a decoder at rest, the commands do what the recursion says. -/
theorem DecInst.runsTo_of_decodes {d : DecInst} {T S : List Byte} (j : Nat) (hph : d.phase = .normal)
    (h : Decodes d.esc T S) : ∃ p, d.RunsTo j T (d.after .normal p S) := by
  obtain ⟨hrest, hout⟩ := h
  obtain ⟨p, hrun⟩ := DecInst.runsTo_decodeFrom (d := d) j T (by simp [DecInst.Held, hph])
  rw [hph, hrest, decodeFrom_congr_captured d.esc _ 0x00#8 T (by decide), ← decodeStream, hout] at hrun
  exact ⟨p, hrun⟩

/-- A decoder at rest ingests the bytes, emits what they decode to and is at rest again. -/
theorem decIngestBuffer_decodes {s : State} {j : Nat} {d : DecInst} {T S : List Byte} (hj : s.decs[j]? = some d)
    (hph : d.phase = .normal) (h : Decodes d.esc T S) :
    ∃ (t : State) (d' : DecInst), execAll (decIngestBuffer j T) s = .next t ∧ t.decs[j]? = some d' ∧
      d'.phase = .normal ∧ d'.sink.out = d.sink.out ++ S := by
  obtain ⟨p, hrun⟩ := DecInst.runsTo_of_decodes j hph h
  exact ⟨_, _, hrun s hj, State.setDec_getElem? hj, rfl, rfl⟩

/-! ### What an encoder has emitted so far -/

/-- The state of an encoder between two commands: the byte of an open run is held, and the run is shorter than 255 (R25,
R26). -/
def EncInst.Sound (e : EncInst) : Prop := e.Held ∧ e.runLength.toNat ≤ 254

/-- The commands take the instance from `e` to `e'` and emit `code`, which decodes to `plain`; and `plain` is what was taken
in, less the run that is still open (R104, R105). -/
structure EncInst.Streams (k : Nat) (cs : List Instr) (e e' : EncInst) (code plain : List Byte) : Prop where
  runs : e.RunsTo k cs e'
  esc_eq : e'.esc = e.esc
  emits : e'.sink.out = e.sink.out ++ code
  decodes : Decodes e.esc code plain
  balance : e.openBytes ++ ingested cs = plain ++ e'.openBytes

theorem ingested_append (cs ds : List Instr) : ingested (cs ++ ds) = ingested cs ++ ingested ds := by
  induction cs with
  | nil => rfl
  | cons i cs ih => cases i <;> simp [ingested, ih]

theorem EncInst.runsTo_nil (k : Nat) (e : EncInst) : e.RunsTo k [] e :=
  fun _ hk => congrArg Host.Outcome.next (State.setEnc_self hk).symm

theorem EncInst.streams_nil (k : Nat) (e : EncInst) : e.Streams k [] e [] [] where
  runs := EncInst.runsTo_nil k e
  esc_eq := rfl
  emits := (List.append_nil _).symm
  decodes := .nil e.esc
  balance := List.append_nil _

theorem EncInst.Streams.trans {k : Nat} {cs ds : List Instr} {e e' e'' : EncInst} {code code' plain plain' : List Byte}
    (h : e.Streams k cs e' code plain) (h' : e'.Streams k ds e'' code' plain') :
    e.Streams k (cs ++ ds) e'' (code ++ code') (plain ++ plain') where
  runs := h.runs.trans h'.runs
  esc_eq := h'.esc_eq.trans h.esc_eq
  emits := by rw [h'.emits, h.emits, List.append_assoc]
  decodes := h.decodes.append (h.esc_eq ▸ h'.decodes)
  balance := by
    rw [ingested_append, ← List.append_assoc, h.balance, List.append_assoc, h'.balance, List.append_assoc]

/-- One ENC_INGEST: the open run is emitted when it ends (case 3) or is complete (case 2 at 255), and else nothing (R76). -/
theorem EncInst.streams_encIngest {e : EncInst} (k : Nat) (b : Byte) (h : e.Sound) :
    ∃ e' code plain, e.Streams k [.encIngest k b] e' code plain ∧ e'.Sound := by
  obtain ⟨hheld, hmax⟩ := h
  have hstep {p : PendingReg} {n : Byte} {code plain : List Byte} (hf : encIngestOn b e = .ok (e.after p n code))
      (hw : p.written = true) (hn : n.toNat ≤ 254) (hcode : Decodes e.esc code plain)
      (hbal : e.openBytes ++ [b] = plain ++ List.replicate n.toNat p.byte) :
      ∃ e' code plain, e.Streams k [.encIngest k b] e' code plain ∧ e'.Sound :=
    ⟨_, code, plain, ⟨EncInst.runsTo_encIngest hf, rfl, rfl, hcode, hbal⟩, fun _ => hw, hn⟩
  by_cases h : e.runLength = 0#8
  · exact hstep (encIngestOn_start b h) rfl (by decide) (.nil _) (by simp [EncInst.openBytes, h])
  by_cases hb : b = e.pending.byte
  · subst hb
    have hopen : e.openBytes ++ [e.pending.byte] = List.replicate (e.runLength.toNat + 1) e.pending.byte := by
      rw [EncInst.openBytes_append_cons, List.append_nil]
    by_cases h254 : e.runLength = 254#8
    · refine hstep (encIngestOn_complete hheld h254) (hheld h) (by decide) (decodes_frame _ _ _) ?_
      have hfull : e.runLength.toNat + 1 = (255#8).toNat := by rw [h254]; rfl
      rw [hopen, hfull]
      exact (List.append_nil _).symm
    · have hne : e.runLength.toNat ≠ 254 := fun hn => h254 (BitVec.eq_of_toNat_eq hn)
      have hsucc : (e.runLength + 1#8).toNat = e.runLength.toNat + 1 := by bv_omega
      refine hstep (encIngestOn_countUp h hheld (by bv_omega)) (hheld h) (by omega) (.nil _) ?_
      rw [hopen, hsucc, List.nil_append]
  · exact hstep (encIngestOn_change h hheld hb) rfl (by decide) (decodes_flushBytes _ _ h) rfl

/-- One ENC_FLUSH: the open run, if there is one, is emitted (R73, R80). -/
theorem EncInst.streams_encFlush {e : EncInst} (k : Nat) (h : e.Sound) :
    ∃ e' code plain, e.Streams k [.encFlush k] e' code plain ∧ e'.Sound := by
  obtain ⟨hheld, hmax⟩ := h
  by_cases h0 : e.runLength = 0#8
  · exact ⟨e, [], [], ⟨EncInst.runsTo_encFlush (flushCore_closed h0), rfl, by simp, .nil _, by simp [ingested]⟩, hheld, hmax⟩
  · refine ⟨_, _, e.openBytes, ⟨EncInst.runsTo_encFlush (flushCore_open_after h0 hheld), rfl, rfl,
      decodes_flushBytes _ _ h0, ?_⟩, ?_⟩
    · simp [EncInst.openBytes, ingested]
    · simp [EncInst.Sound, EncInst.Held]

/-- Any commands of the encoder. -/
theorem EncInst.streams_commands {e : EncInst} {k : Nat} {cs : List Instr} (h : e.Sound)
    (hport : ∀ i ∈ cs, i.port = .enc k) : ∃ e' code plain, e.Streams k cs e' code plain := by
  induction cs generalizing e with
  | nil => exact ⟨e, [], [], EncInst.streams_nil k e⟩
  | cons i cs ih =>
    have hone : ∃ e' code plain, e.Streams k [i] e' code plain ∧ e'.Sound := by
      have hi := hport i List.mem_cons_self
      cases i <;> cases hi
      case encIngest b => exact EncInst.streams_encIngest k b h
      case encFlush => exact EncInst.streams_encFlush k h
    obtain ⟨e', code, plain, hfirst, h'⟩ := hone
    obtain ⟨e'', code', plain', hrest⟩ := ih h' fun j hj => hport j (List.mem_cons_of_mem i hj)
    exact ⟨e'', _, _, hfirst.trans hrest⟩

/-- From no open run, what was taken in is what the emitted bytes decode to, and then the open run. -/
theorem encCommands_stream {s : State} {k : Nat} {e : EncInst} {cs : List Instr} (hk : s.encs[k]? = some e)
    (h0 : e.runLength = 0#8) (hport : ∀ i ∈ cs, i.port = .enc k) :
    ∃ (e' : EncInst) (code plain : List Byte), execAll cs s = .next (s.setEnc k e') ∧ e'.sink.out = e.sink.out ++ code ∧
      Decodes e.esc code plain ∧ ingested cs = plain ++ e'.openBytes := by
  obtain ⟨e', code, plain, h⟩ := EncInst.streams_commands (e := e) ⟨fun hopen => absurd h0 hopen, by simp [h0]⟩ hport
  have hnone : e.openBytes = [] := by simp [EncInst.openBytes, h0]
  exact ⟨e', code, plain, h.runs s hk, h.emits, h.decodes, by simpa [hnone] using h.balance⟩

/-- Commands of which the last is ENC_FLUSH leave no run open (R81). -/
theorem runLength_of_last_encFlush {s t : State} {k : Nat} {e : EncInst} {cs : List Instr} (h : execAll cs s = .next t)
    (hk : t.encs[k]? = some e) (hlast : cs.getLast? = some (.encFlush k)) : e.runLength = 0#8 := by
  obtain ⟨init, rfl⟩ := List.getLast?_eq_some_iff.mp hlast
  rw [execAll_append, andThen_eq_next_iff] at h
  obtain ⟨u, -, hflush⟩ := h
  rw [execAll_singleton] at hflush
  obtain ⟨e₀, hk₀, h0⟩ := (secondFlushDoesNothing u t k hflush).1
  obtain rfl : e₀ = e := Option.some.inj (hk₀.symm.trans hk)
  exact h0

/-- Settles O36: each command emits nothing or the open run (`EncInst.Streams`), and the decoder makes of the emitted bytes
what they decode to. -/
theorem streamingPrefix : Obligations.StreamingPrefix := by
  intro s k j e d cs hk hj h0 hph hesc hport
  obtain ⟨e', code, plain, ht, hout, hdec, hbal⟩ := encCommands_stream hk h0 hport
  have hk' : (s.setEnc k e').encs[k]? = some e' := State.setEnc_getElem? hk
  obtain ⟨u, d', hu, hj', hph', hout'⟩ :=
    decIngestBuffer_decodes (s := s.setEnc k e') hj hph (hesc ▸ hdec : Decodes d.esc code plain)
  refine ⟨_, u, e', d', code, plain, ht, hk', hout, hu, hj', hout', hph', hbal, fun hlast => ?_⟩
  rw [hbal, EncInst.openBytes, runLength_of_last_encFlush ht hk' hlast]
  exact (List.append_nil plain).symm

/-! ### The round trip -/

/-- The commands of R83 take in exactly `S`. -/
theorem ingested_encodeCommands (k : Nat) (S : List Byte) : ingested (encodeCommands k S) = S := by
  induction S with
  | nil => rfl
  | cons b S ih => exact congrArg (b :: ·) ih

theorem port_of_mem_encodeCommands {k : Nat} {S : List Byte} {i : Instr} (h : i ∈ encodeCommands k S) :
    i.port = .enc k := by
  simp only [encodeCommands, List.mem_append, List.mem_map, List.mem_singleton] at h
  obtain ⟨b, -, rfl⟩ | rfl := h <;> rfl

/-- The commands of R83 end with a flush. -/
theorem getLast?_encodeCommands (k : Nat) (S : List Byte) : (encodeCommands k S).getLast? = some (.encFlush k) :=
  List.getLast?_concat

/-- Settles O35: the commands end with a flush, so no byte of `S` is missing. -/
theorem roundTrip : Obligations.RoundTrip := by
  intro s k j e d S hk hj h0 hph hesc
  obtain ⟨t, u, e', d', code, plain, ht, hk', hout, hu, hj', hout', hph', -, hall⟩ :=
    streamingPrefix s k j e d (encodeCommands k S) hk hj h0 hph hesc fun i => port_of_mem_encodeCommands
  obtain rfl : plain = S := (hall (getLast?_encodeCommands k S)).trans (ingested_encodeCommands k S)
  exact ⟨t, u, e', d', code, ht, hk', hout, hu, hj', hout', hph'⟩

/-- `encode_ESC(S)` decodes to `S`: it is what an encoder emits, here one right after launch. -/
theorem decodes_encodeStream (esc : Byte) (S : List Byte) : Decodes esc (encodeStream esc S) S := by
  have hk : (State.launch [esc] []).encs[0]? = some (EncInst.launch esc) := rfl
  obtain ⟨t, e', ht, hk', hout, h0'⟩ := encodeCommands_emit S hk rfl
  obtain ⟨e'', code, plain, ht', hout', hdec, hbal⟩ :=
    encCommands_stream (cs := encodeCommands 0 S) hk rfl fun i => port_of_mem_encodeCommands
  obtain rfl : t = (State.launch [esc] []).setEnc 0 e'' := Host.Outcome.next.inj (ht.symm.trans ht')
  obtain rfl : e'' = e' := Option.some.inj ((State.setEnc_getElem? hk).symm.trans hk')
  have hcode : code = encodeStream esc S := List.append_cancel_left (hout'.symm.trans hout)
  have hplain : plain = S := by simpa [EncInst.openBytes, h0', ingested_encodeCommands] using hbal.symm
  rwa [hcode, hplain] at hdec

/-- Settles O34: both kinds of stream leave a decoder at rest, by the recursion of R102. -/
theorem decoderRestsAtItemBoundaries : Obligations.DecoderRestsAtItemBoundaries := by
  refine ⟨fun s j d items hj hph hlegal => ?_, fun s j d S hj hph => ?_⟩
  · exact decIngestBuffer_decodes hj hph (.flatMap fun it hit => Item.decodes_wire (hlegal it hit))
  · obtain ⟨t, d', ht, hj', hph', -⟩ := decIngestBuffer_decodes hj hph (decodes_encodeStream d.esc S)
    exact ⟨t, d', ht, hj', hph'⟩

end Sys2Proof.Machine
end

section
/-! SUPPORT. Where a command faults (R113). -/

namespace Sys2Proof.Machine

/-- `onEnc` faults exactly where the instance's transition does. -/
theorem onEnc_eq_fault_iff {k : Nat} {f : EncInst → Except Fault EncInst} {s : State} {r : Fault} :
    onEnc k f s = .fault r ↔ ∃ e, s.encs[k]? = some e ∧ f e = .error r := by
  refine ⟨onEnc_fault, ?_⟩
  rintro ⟨e, hk, hf⟩
  simp only [onEnc, hk, hf]

/-- `onDec` faults exactly where the instance's transition does. -/
theorem onDec_eq_fault_iff {j : Nat} {f : DecInst → Except Fault DecInst} {s : State} {r : Fault} :
    onDec j f s = .fault r ↔ ∃ d, s.decs[j]? = some d ∧ f d = .error r := by
  refine ⟨onDec_fault, ?_⟩
  rintro ⟨d, hj, hf⟩
  simp only [onDec, hj, hf]

/-- FlushCore faults exactly at an open run without its byte (R73, R113). -/
theorem flushCore_eq_error_iff {e : EncInst} {r : Fault} :
    flushCore e = .error r ↔ e.runLength ≠ 0#8 ∧ e.pending.written = false := by
  obtain ⟨hrun, hf⟩ | ⟨-, hp, hf⟩ | ⟨hrun, hp, hf⟩ := flushCore_cases e
  · simp [hf, hrun]
  · simp [hf, hp]
  · simp [hf, hrun, hp]

/-- ENC_INGEST faults exactly at an open run without its byte (R76, R113). -/
theorem encIngestOn_eq_error_iff {b : Byte} {e : EncInst} {r : Fault} :
    encIngestOn b e = .error r ↔ e.runLength ≠ 0#8 ∧ e.pending.written = false := by
  obtain ⟨hrun, hf⟩ | ⟨-, hp, -, -, hf⟩ | ⟨-, hp, -, -, hf⟩ | ⟨-, hp, -, hf⟩ | ⟨hrun, hp, hf⟩ := encIngestOn_cases b e
  · simp [hf, hrun]
  · simp [hf, hp]
  · simp [hf, hp]
  · simp [hf, hp]
  · simp [hf, hrun, hp]

/-- DEC_INGEST faults exactly at a count other than 0 without the captured byte (R90, R113). -/
theorem decIngestOn_eq_error_iff {b : Byte} {d : DecInst} {r : Fault} :
    decIngestOn b d = .error r ↔ d.phase = .sawEscapeAndByte ∧ b ≠ 0#8 ∧ d.pending.written = false := by
  obtain ⟨hph, -, hf⟩ | ⟨hph, -, hf⟩ | ⟨hph, hf⟩ | ⟨-, h0 | hp, hf⟩ | ⟨hph, hb, hp, hf⟩ := decIngestOn_cases b d
  · simp [hf, hph]
  · simp [hf, hph]
  · simp [hf, hph]
  · rw [hf]; simp [h0]
  · simp [hf, hp]
  · simp [hf, hph, hb, hp]

/-- Settles O47: there is one fault reason, and a command answers it exactly where its instance's transition does, which
reads a missing byte. -/
theorem faultExactlyOnMissingByte : Obligations.FaultExactlyOnMissingByte := by
  intro s i r
  have hr : r = .readUnwrittenPending := by cases r; rfl
  cases i with
  | encIngest k b => simp only [exec_encIngest, onEnc_eq_fault_iff, encIngestOn_eq_error_iff, hr, true_and]
  | encFlush k => simp only [exec_encFlush, onEnc_eq_fault_iff, flushCore_eq_error_iff, hr, true_and]
  | decIngest j b => simp only [exec_decIngest, onDec_eq_fault_iff, decIngestOn_eq_error_iff, hr, true_and]

end Sys2Proof.Machine
end

section
/-! SUPPORT. The idle machine (R125), and the end of a run and its observation (R128, R144). -/

namespace Sys2Proof.Machine

/-! ### Nothing offered -/

/-- An output cycle leaves a machine alone that has nothing to deliver (R45). -/
theorem State.transferAll_of_allDelivered {s : State} (h : s.AllDelivered) : s.transferAll = s := by
  obtain ⟨hencs, hdecs⟩ := h
  have he : s.encs.map (EncInst.onSink SinkPort.transfer) = s.encs := by
    refine (List.map_congr_left fun e he => ?_).trans (List.map_id _)
    simp only [EncInst.onSink, SinkPort.transfer_idle _ (.inl (hencs e he)), id]
  have hd : s.decs.map (DecInst.onSink SinkPort.transfer) = s.decs := by
    refine (List.map_congr_left fun d hd => ?_).trans (List.map_id _)
    simp only [DecInst.onSink, SinkPort.transfer_idle _ (.inl (hdecs d hd)), id]
  simp only [State.transferAll, he, hd]

/-- Settles O14: with nothing offered the step is an output cycle of every sink, and no byte waits for one. -/
theorem idleMachineHoldsState : Obligations.IdleMachineHoldsState := by
  intro s hin hdel
  rw [step_of_no_inputs hin, State.transferAll_of_allDelivered hdel]

/-- At most `n` bytes wait at any instance. -/
def State.WaitsAtMost (n : Nat) (s : State) : Prop :=
  (∀ e ∈ s.encs, e.sink.undelivered ≤ n) ∧ (∀ d ∈ s.decs, d.sink.undelivered ≤ n)

/-- The invariant bounds the waiting bytes (R148). -/
theorem State.Inv.waitsAtMost {s : State} (h : s.Inv) : s.WaitsAtMost 255 := by
  obtain ⟨hencs, hdecs⟩ := h
  refine ⟨fun e he => ?_, fun d hd => ?_⟩
  · obtain ⟨-, -, -, hbound⟩ := hencs e he
    omega
  · obtain ⟨-, -, hbound⟩ := hdecs d hd
    exact hbound

/-- No waiting byte is every byte delivered. -/
theorem State.waitsAtMost_zero_iff {s : State} : s.WaitsAtMost 0 ↔ s.AllDelivered := by
  simp only [State.WaitsAtMost, State.AllDelivered, Nat.le_zero]

/-- An output cycle of a port with a ready sink takes one waiting byte, if there is any (R45). -/
theorem SinkPort.undelivered_transfer_le {n : Nat} {q : SinkPort} (hready : q.ready = true) (h : q.undelivered ≤ n + 1) :
    q.transfer.undelivered ≤ n := by
  by_cases hidle : q.undelivered = 0
  · rw [SinkPort.transfer_idle q (.inl hidle), hidle]
    exact n.zero_le
  · rw [SinkPort.transfer_moves q hidle hready]
    exact Nat.sub_le_of_le_add h

/-- An output cycle of every sink takes one waiting byte from every instance, all sinks being ready. -/
theorem State.WaitsAtMost.transferAll {n : Nat} {s : State} (hready : s.AllReady) (h : s.WaitsAtMost (n + 1)) :
    s.transferAll.WaitsAtMost n :=
  ⟨List.forall_mem_map.mpr fun e he => SinkPort.undelivered_transfer_le (hready.1 e he) (h.1 e he),
    List.forall_mem_map.mpr fun d hd => SinkPort.undelivered_transfer_le (hready.2 d hd) (h.2 d hd)⟩

/-- The ready lines are the sinks' (R45): an output cycle does not touch them. -/
theorem State.AllReady.transferAll {s : State} (h : s.AllReady) : s.transferAll.AllReady :=
  ⟨List.forall_mem_map.mpr fun e he => e.sink.transfer_ready.trans (h.1 e he),
    List.forall_mem_map.mpr fun d hd => d.sink.transfer_ready.trans (h.2 d hd)⟩

/-- With nothing offered and every sink ready, `n` steps deliver `n` waiting bytes of every instance. -/
theorem State.allDelivered_of_runSteps {n : Nat} {s t : State} (hin : s.inputs = []) (hready : s.AllReady)
    (hn : s.WaitsAtMost n) (h : runSteps n s = .next t) : t.AllDelivered := by
  induction n generalizing s with
  | zero =>
    obtain rfl : s = t := by simpa using h
    exact State.waitsAtMost_zero_iff.mp hn
  | succ n ih =>
    rw [runSteps_succ, step_of_no_inputs hin] at h
    exact ih (s := s.transferAll) hin hready.transferAll (hn.transferAll hready) h

/-! ### The end of a run -/

/-- Two states whose instances have the same streams. -/
theorem State.outAt?_eq_of_streams {s t : State}
    (hencs : t.encs.map (fun e => e.sink.out) = s.encs.map (fun e => e.sink.out))
    (hdecs : t.decs.map (fun d => d.sink.out) = s.decs.map (fun d => d.sink.out)) (p : Port) :
    t.outAt? p = s.outAt? p := by
  cases p with
  | enc k => simpa [State.outAt?, State.sinkAt?, Function.comp_def] using congrArg (·[k]?) hencs
  | dec j => simpa [State.outAt?, State.sinkAt?, Function.comp_def] using congrArg (·[j]?) hdecs

/-- Where every byte is delivered, no byte of a port waits. -/
theorem State.AllDelivered.undelivered_sinkAt? {s : State} {p : Port} {q : SinkPort} (h : s.AllDelivered)
    (hq : s.sinkAt? p = some q) : q.undelivered = 0 := by
  obtain ⟨hencs, hdecs⟩ := h
  cases p with
  | enc k =>
    obtain ⟨e, hk, rfl⟩ := Option.map_eq_some_iff.mp hq
    exact hencs e (List.mem_of_getElem? hk)
  | dec j =>
    obtain ⟨d, hj, rfl⟩ := Option.map_eq_some_iff.mp hq
    exact hdecs d (List.mem_of_getElem? hj)

/-- An instance with an output port has registers. -/
theorem State.exists_registersAt? {s : State} {p : Port} {q : SinkPort} (hq : s.sinkAt? p = some q) :
    ∃ r, s.registersAt? p = some r := by
  cases p with
  | enc k =>
    obtain ⟨e, hk, -⟩ := Option.map_eq_some_iff.mp hq
    simp [State.registersAt?, hk]
  | dec j =>
    obtain ⟨d, hj, -⟩ := Option.map_eq_some_iff.mp hq
    simp [State.registersAt?, hj]

/-- At the end of the machine the run of every instance has ended, and its observation has the instance's stream (R128). -/
theorem State.AtEnd.exists_observed {s : State} {p : Port} {vs : List Byte} (h : s.AtEnd) (hout : s.outAt? p = some vs) :
    ∃ o : Observation, s.Observed p o ∧ o.out = vs := by
  obtain ⟨hin, hdel⟩ := h
  obtain ⟨q, hq, -⟩ := Option.map_eq_some_iff.mp hout
  obtain ⟨r, hr⟩ := State.exists_registersAt? hq
  exact ⟨⟨vs, r⟩, ⟨⟨by simp [hin], q, hq, hdel.undelivered_sinkAt? hq⟩, hout, hr⟩, rfl⟩

/-- Settles O12: `n` steps with nothing offered leave every stream alone (O15) and deliver `n` bytes of every instance, and
at most 255 wait (R148). -/
theorem everyByteIsDelivered : Obligations.EveryByteIsDelivered := by
  intro s hI hin hready
  obtain ⟨-, hrun⟩ := nothingEmittedWithoutCommand
  obtain ⟨t, ht, htin, hencs, hdecs⟩ := hrun s 255 hin
  have hend : t.AtEnd := ⟨htin, State.allDelivered_of_runSteps hin hready hI.waitsAtMost ht⟩
  have hencs' : t.encs.map (fun e => e.sink.out) = s.encs.map (fun e => e.sink.out) := by
    simpa [Function.comp_def] using congrArg (List.map fun a => a.2.2.2) hencs
  have hdecs' : t.decs.map (fun d => d.sink.out) = s.decs.map (fun d => d.sink.out) := by
    simpa [Function.comp_def] using congrArg (List.map fun a => a.2.2.2) hdecs
  refine ⟨t, ht, hend, hencs', hdecs', fun p q hq => hend.exists_observed ?_⟩
  rw [State.outAt?_eq_of_streams hencs' hdecs' p, State.outAt?, hq, Option.map_some]

/-- An input that happens leaves the list of the others alone. -/
theorem perform_inputs {x : Input} {s t : State} (h : perform x s = .next t) : t.inputs = s.inputs := by
  obtain ⟨-, -, i, -, -, hi⟩ | ⟨p, -, -, -, -, -, rfl⟩ | ⟨p, -, -, -, -, rfl⟩ | ⟨p, -, -, -, rfl⟩ |
    ⟨p, r, -, -, -, rfl⟩ := perform_cases h
  · exact exec_inputs hi
  · exact s.resetAt_inputs p
  · exact s.resetAt_inputs p
  · exact s.onSinkAt_inputs p _
  · exact s.onSinkAt_inputs p _

/-- A step adds no input. -/
theorem step_inputs_sublist {s t : State} (h : step s = .next t) : t.inputs.Sublist s.inputs := by
  obtain ⟨-, -, rfl⟩ | ⟨pre, x, post, hi, -, -, -, hx⟩ := step_cases h
  · exact .refl _
  · rw [perform_inputs hx, hi]
    exact (List.sublist_cons_self x post).append_left pre

/-- A step that keeps the stream of an idle instance leaves it idle: no byte waits that is not emitted. -/
theorem exists_idle_of_step {s t : State} {p : Port} {q : SinkPort} (h : step s = .next t)
    (hq : s.sinkAt? p = some q) (hidle : q.undelivered = 0) (hout : t.outAt? p = s.outAt? p) :
    ∃ q', t.sinkAt? p = some q' ∧ q'.undelivered = 0 := by
  obtain ⟨q', hq', hcase⟩ := step_sinkAt? h hq
  refine ⟨q', hq', ?_⟩
  obtain ⟨vs, rfl⟩ | rfl | rfl | ⟨r, rfl⟩ := hcase
  · obtain rfl : vs = [] := by simpa [State.outAt?, hq, hq'] using hout
    simpa using hidle
  · rfl
  · rw [SinkPort.transfer_idle q (.inl hidle), hidle]
  · exact hidle

/-- Settles O13: no command of the instance is left and none of its resets is next, so the step does not drive it and keeps
its registers and its stream (`State.keptAt_step`). -/
theorem endedRunKeepsObservation : Obligations.EndedRunKeepsObservation := by
  intro s t p o hobs hreset h
  obtain ⟨⟨hcmds, q, hq, hidle⟩, hout, hregs⟩ := hobs
  have hdriven : ¬ s.DrivenNext p := by
    rintro ⟨c, hc, hr | hcmd⟩
    · exact hreset ⟨c, hc, hr⟩
    · obtain ⟨hn, -⟩ | ⟨pre, x, post, hi, hn, -⟩ := State.nextInput?_cases (s := s) [] s.inputs (by simp)
      · simp [hn] at hc
      · obtain rfl : c = (x, pre ++ post) := by simpa [hn, eq_comm] using hc
        simp [hcmds x (by simp [hi])] at hcmd
  obtain ⟨hregs', -, hout'⟩ := State.keptAt_step h hdriven
  have hin := step_inputs_sublist h
  exact ⟨⟨fun x hx => hcmds x (hin.subset hx), exists_idle_of_step h hq hidle hout'⟩,
    hout'.trans hout, hregs'.trans hregs⟩

end Sys2Proof.Machine
end

section
/-! SUPPORT. Events at different instances (R115, R37, R50): an input acts on the instance at its port alone. -/

namespace Sys2Proof.Machine

/-! ### Actions on one instance -/

/-- Wherever `g` answers a next state, it is one transition of the instance on `p`, the same in every state. -/
def ActsAt (p : Port) (g : State → Host.Outcome State Fault Refusal) : Prop :=
  match p with
  | .enc k => ∃ f, ∀ s t, g s = .next t ↔ onEnc k f s = .next t
  | .dec j => ∃ f, ∀ s t, g s = .next t ↔ onDec j f s = .next t

/-- Actions on different instances commute. -/
theorem ActsAt.comm {p p' : Port} {g h : State → Host.Outcome State Fault Refusal} {s t u : State} (hg : ActsAt p g)
    (hh : ActsAt p' h) (hp : p ≠ p') (hs : g s = .next t) (ht : h t = .next u) :
    ∃ t', h s = .next t' ∧ g t' = .next u := by
  cases p with
  | enc k =>
    obtain ⟨f, hf⟩ := hg
    cases p' with
    | enc m =>
      obtain ⟨f', hf'⟩ := hh
      simp only [hf, hf'] at hs ht ⊢
      exact onEnc_onEnc_comm (by simpa using hp) hs ht
    | dec m =>
      obtain ⟨f', hf'⟩ := hh
      simp only [hf, hf'] at hs ht ⊢
      exact onEnc_onDec_comm hs ht
  | dec j =>
    obtain ⟨f, hf⟩ := hg
    cases p' with
    | enc m =>
      obtain ⟨f', hf'⟩ := hh
      simp only [hf, hf'] at hs ht ⊢
      exact onDec_onEnc_comm hs ht
    | dec m =>
      obtain ⟨f', hf'⟩ := hh
      simp only [hf, hf'] at hs ht ⊢
      exact onDec_onDec_comm (by simpa using hp) hs ht

/-- An action on one instance leaves the ports of the others alone (R37). -/
theorem ActsAt.sinkAt?_of_ne {p p' : Port} {g : State → Host.Outcome State Fault Refusal} {s t : State}
    (hg : ActsAt p g) (hp : p' ≠ p) (hs : g s = .next t) : t.sinkAt? p' = s.sinkAt? p' := by
  cases p with
  | enc k =>
    obtain ⟨f, hf⟩ := hg
    obtain ⟨-, hdecs, -, hoth, -⟩ := onEnc_frame ((hf s t).mp hs)
    cases p' with
    | enc m => simp only [State.sinkAt?, hoth m (by simpa using hp)]
    | dec m => simp only [State.sinkAt?, hdecs]
  | dec j =>
    obtain ⟨f, hf⟩ := hg
    obtain ⟨-, hencs, -, hoth, -⟩ := onDec_frame ((hf s t).mp hs)
    cases p' with
    | enc m => simp only [State.sinkAt?, hencs]
    | dec m => simp only [State.sinkAt?, hoth m (by simpa using hp)]

/-- Two functions that answer the same next states act alike. -/
theorem ActsAt.congr {p : Port} {g h : State → Host.Outcome State Fault Refusal} (hg : ActsAt p g)
    (hgh : ∀ s t, h s = .next t ↔ g s = .next t) : ActsAt p h := by
  cases p with
  | enc k =>
    obtain ⟨f, hf⟩ := hg
    exact ⟨f, fun s t => (hgh s t).trans (hf s t)⟩
  | dec j =>
    obtain ⟨f, hf⟩ := hg
    exact ⟨f, fun s t => (hgh s t).trans (hf s t)⟩

/-- What never answers a next state acts on any instance. -/
theorem ActsAt.of_ne_next {p : Port} {g : State → Host.Outcome State Fault Refusal} (hg : ∀ s t, g s ≠ .next t) :
    ActsAt p g := by
  cases p with
  | enc k =>
    refine ⟨fun _ => .error .readUnwrittenPending, fun s t => iff_of_false (hg s t) fun h => ?_⟩
    obtain ⟨_, _, -, hf, -⟩ := onEnc_next h
    simp at hf
  | dec j =>
    refine ⟨fun _ => .error .readUnwrittenPending, fun s t => iff_of_false (hg s t) fun h => ?_⟩
    obtain ⟨_, _, -, hf, -⟩ := onDec_next h
    simp at hf

/-! ### Every input is one -/

/-- A command acts on the instance on its port (R52, R56). -/
theorem actsAt_exec (i : Instr) : ActsAt i.port (exec i) := by
  cases hi : i.port with
  | enc k =>
    obtain ⟨f, hf⟩ := exec_eq_onEnc hi
    exact ⟨f, fun s t => by rw [hf]⟩
  | dec j =>
    obtain ⟨f, hf⟩ := exec_eq_onDec hi
    exact ⟨f, fun s t => by rw [hf]⟩

/-- A change of one ENC instance that always completes, as an input at its port. -/
theorem atPort_enc_modify (k : Nat) (f : EncInst → EncInst) (s : State) :
    atPort (.enc k) (fun s => { s with encs := s.encs.modify k f }) s = onEnc k (fun e => .ok (f e)) s := by
  cases hk : s.encs[k]? <;>
    simp [atPort, onEnc, State.sinkAt?, State.setEnc, List.modify_eq_set_getElem?, hk]

/-- A change of one DEC instance that always completes, as an input at its port. -/
theorem atPort_dec_modify (j : Nat) (f : DecInst → DecInst) (s : State) :
    atPort (.dec j) (fun s => { s with decs := s.decs.modify j f }) s = onDec j (fun d => .ok (f d)) s := by
  cases hj : s.decs[j]? <;>
    simp [atPort, onDec, State.sinkAt?, State.setDec, List.modify_eq_set_getElem?, hj]

/-- A change of an output port acts on its instance (R45). -/
theorem actsAt_onSinkAt (p : Port) (f : SinkPort → SinkPort) : ActsAt p (atPort p (State.onSinkAt p f)) := by
  cases p with
  | enc k => exact ⟨_, fun s t => by rw [← atPort_enc_modify k (EncInst.onSink f)]; rfl⟩
  | dec j => exact ⟨_, fun s t => by rw [← atPort_dec_modify j (DecInst.onSink f)]; rfl⟩

/-- A reset, at whatever time, acts on its instance (R133). -/
theorem actsAt_resetAt (p : Port) : ActsAt p (atPort p (State.resetAt p)) := by
  cases p with
  | enc k => exact ⟨_, fun s t => by rw [← atPort_enc_modify k EncInst.reset]; rfl⟩
  | dec j => exact ⟨_, fun s t => by rw [← atPort_dec_modify j DecInst.reset]; rfl⟩

/-- The reset step acts on its instance; where it is refused (R132) the transition answers no next state. -/
theorem actsAt_resetStep (p : Port) : ActsAt p (resetStep p) := by
  cases p with
  | enc k =>
    refine ⟨fun e => if e.sink.busy then .error .readUnwrittenPending else .ok e.reset, fun s t => ?_⟩
    cases hk : s.encs[k]? with
    | none => simp [resetStep, onEnc, State.sinkAt?, hk]
    | some e =>
      cases hb : e.sink.busy <;>
        simp [resetStep, onEnc, State.sinkAt?, State.resetAt, State.setEnc, List.modify_eq_set_getElem?, hk, hb]
  | dec j =>
    refine ⟨fun d => if d.sink.busy then .error .readUnwrittenPending else .ok d.reset, fun s t => ?_⟩
    cases hj : s.decs[j]? with
    | none => simp [resetStep, onDec, State.sinkAt?, hj]
    | some d =>
      cases hb : d.sink.busy <;>
        simp [resetStep, onDec, State.sinkAt?, State.resetAt, State.setDec, List.modify_eq_set_getElem?, hj, hb]

/-- A command answers a next state only if the platform has its port. -/
theorem exists_sinkAt?_of_exec {i : Instr} {s t : State} (h : exec i s = .next t) : ∃ q, s.sinkAt? i.port = some q := by
  cases hi : i.port with
  | enc k =>
    obtain ⟨f, hf⟩ := exec_eq_onEnc hi
    obtain ⟨e, -, hk, -⟩ := onEnc_next ((hf s).symm.trans h)
    exact ⟨e.sink, by simp [State.sinkAt?, hk]⟩
  | dec j =>
    obtain ⟨f, hf⟩ := exec_eq_onDec hi
    obtain ⟨d, -, hj, -⟩ := onDec_next ((hf s).symm.trans h)
    exact ⟨d.sink, by simp [State.sinkAt?, hj]⟩

/-- An accepted word acts on the instance on its port: it is a command there or refused (R56, R59). -/
theorem actsAt_offerCommand (p : Port) (w : CmdWord) : ActsAt p (offerCommand p w) := by
  cases hd : decode p w with
  | reserved p' w' =>
    refine .of_ne_next fun s t h => ?_
    cases hq : s.sinkAt? p <;> simp [offerCommand, acceptCommand, hq, hd] at h
  | command i =>
    obtain rfl := port_of_decode hd
    refine (actsAt_exec i).congr fun s t => ?_
    cases hq : s.sinkAt? i.port with
    | some q => rw [offerCommand_of_sink w hq, acceptCommand_of_decode s hd]
    | none =>
      refine iff_of_false (by simp [offerCommand, hq]) fun h => ?_
      obtain ⟨q, hq'⟩ := exists_sinkAt?_of_exec h
      simp [hq] at hq'

/-- Every input acts on the instance at its port. -/
theorem actsAt_perform (x : Input) : ActsAt x.port (perform x) := by
  cases x with
  | offer p w => exact actsAt_offerCommand p w
  | reset p w => exact actsAt_resetStep p
  | resetDuringOutput p w => exact actsAt_resetAt p
  | transfer p => exact actsAt_onSinkAt p SinkPort.transfer
  | sinkReady p r => exact actsAt_onSinkAt p (SinkPort.setReady r)

/-! ### The host's list -/

@[simp] theorem State.setInputs_setInputs (s : State) (is js : List Input) :
    (s.setInputs is).setInputs js = s.setInputs js := rfl

@[simp] theorem State.waits_setInputs (s : State) (is : List Input) (held : List Port) (x : Input) :
    (s.setInputs is).waits held x = s.waits held x := by
  cases x <;> simp [State.waits]

/-- A command does not look at the host's list. -/
theorem exec_setInputs (i : Instr) (s : State) (is : List Input) :
    exec i (s.setInputs is) = mapNext (State.setInputs · is) (exec i s) := by
  cases hi : i.port with
  | enc k =>
    obtain ⟨f, hf⟩ := exec_eq_onEnc hi
    rw [hf, hf]
    obtain ⟨hk, h⟩ | ⟨e, r, hk, he, h⟩ | ⟨e, e', hk, he, h⟩ := onEnc_cases k f s
    · rw [h, onEnc_of_none f (by simpa using hk)]; rfl
    · rw [h, onEnc_eq_fault_iff.mpr ⟨e, by simpa using hk, he⟩]; rfl
    · rw [h, onEnc_ok (by simpa using hk) he]; rfl
  | dec j =>
    obtain ⟨f, hf⟩ := exec_eq_onDec hi
    rw [hf, hf]
    obtain ⟨hj, h⟩ | ⟨d, r, hj, hd, h⟩ | ⟨d, d', hj, hd, h⟩ := onDec_cases j f s
    · rw [h, onDec_of_none f (by simpa using hj)]; rfl
    · rw [h, onDec_eq_fault_iff.mpr ⟨d, by simpa using hj, hd⟩]; rfl
    · rw [h, onDec_ok (by simpa using hj) hd]; rfl

/-- An input at a port does not look at the host's list if the change it makes does not. -/
theorem atPort_setInputs {f : State → State} (hf : ∀ s is, f (s.setInputs is) = (f s).setInputs is) (p : Port)
    (s : State) (is : List Input) : atPort p f (s.setInputs is) = mapNext (State.setInputs · is) (atPort p f s) := by
  cases hq : s.sinkAt? p <;> simp [atPort, hq, mapNext, hf]

theorem State.resetAt_setInputs (p : Port) (s : State) (is : List Input) :
    (s.setInputs is).resetAt p = (s.resetAt p).setInputs is := by cases p <;> rfl

theorem State.onSinkAt_setInputs (p : Port) (f : SinkPort → SinkPort) (s : State) (is : List Input) :
    (s.setInputs is).onSinkAt p f = (s.onSinkAt p f).setInputs is := by cases p <;> rfl

/-- An input that happens does not look at the others in the list. -/
theorem perform_setInputs (x : Input) (s : State) (is : List Input) :
    perform x (s.setInputs is) = mapNext (State.setInputs · is) (perform x s) := by
  cases x with
  | offer p w =>
    cases hq : s.sinkAt? p with
    | none => simp [perform, offerCommand, hq, mapNext]
    | some q =>
      cases hd : decode p w with
      | command i => simpa [perform, offerCommand, acceptCommand, hq, hd] using exec_setInputs i s is
      | reserved p' w' => simp [perform, offerCommand, acceptCommand, hq, hd, mapNext]
  | reset p w =>
    cases hq : s.sinkAt? p with
    | none => simp [perform, resetStep, hq, mapNext]
    | some q => cases hb : q.busy <;> simp [perform, resetStep, hq, hb, mapNext, State.resetAt_setInputs]
  | resetDuringOutput p w => exact atPort_setInputs (State.resetAt_setInputs p) p s is
  | transfer p => exact atPort_setInputs (State.onSinkAt_setInputs p _) p s is
  | sinkReady p r => exact atPort_setInputs (State.onSinkAt_setInputs p _) p s is

/-! ### Two events -/

/-- With nothing held up before it, whether an input waits depends on the port it happens at only. -/
theorem State.waits_nil_congr {s t : State} {x : Input} (h : t.sinkAt? x.port = s.sinkAt? x.port) :
    t.waits [] x = s.waits [] x := by
  cases x with
  | offer p w =>
    have hp : t.sinkAt? p = s.sinkAt? p := h
    simp only [State.waits, State.busyAt, hp]
  | reset | resetDuringOutput | transfer | sinkReady => rfl

/-- The step of an oldest input that does not wait. -/
theorem step_setInputs_cons {s : State} {x : Input} (rest : List Input) (h : s.waits [] x = false) :
    step (s.setInputs (x :: rest)) = mapNext (State.setInputs · rest) (perform x s) := by
  rw [step_head rfl (by simpa using h), State.setInputs_setInputs, perform_setInputs]

theorem mapNext_eq_next_iff {f : State → State} {o : Host.Outcome State Fault Refusal} {t : State} :
    mapNext f o = .next t ↔ ∃ s, o = .next s ∧ f s = t := by
  cases o <;> simp [mapNext]

/-- Two steps whose oldest two inputs are at different instances and do not wait are these two. -/
theorem runSteps_two_events {s : State} {x y : Input} (rest : List Input) (hxy : x.port ≠ y.port)
    (hx : s.waits [] x = false) (hy : s.waits [] y = false) :
    runSteps 2 (s.setInputs (x :: y :: rest)) =
      andThen (perform x s) fun u => mapNext (State.setInputs · rest) (perform y u) := by
  rw [runSteps_succ, step_setInputs_cons _ hx]
  cases hu : perform x s with
  | next u =>
    have hy' : u.waits [] y = false :=
      (State.waits_nil_congr ((actsAt_perform x).sinkAt?_of_ne hxy.symm hu)).trans hy
    simp only [mapNext, andThen]
    rw [runSteps_succ, step_setInputs_cons rest hy']
    cases perform y u <;> rfl
  | fault r => rfl
  | refused r => rfl

/-- Settles O11: the two steps are the two inputs (`runSteps_two_events`), each acts on the instance at its port
(`actsAt_perform`), and such actions commute. -/
theorem eventsOfInstancesCommute : Obligations.EventsOfInstancesCommute := by
  intro s t x y rest hxy hx hy h
  rw [runSteps_two_events rest hxy hx hy, andThen_eq_next_iff] at h
  obtain ⟨u, hu, hrest⟩ := h
  obtain ⟨v, hv, rfl⟩ := mapNext_eq_next_iff.mp hrest
  obtain ⟨u', hu', hv'⟩ := (actsAt_perform x).comm (actsAt_perform y) hxy hu hv
  rw [runSteps_two_events rest hxy.symm hy hx, hu']
  simp only [andThen, hv', mapNext]

end Sys2Proof.Machine
end

section
/-! SUPPORT. A word that waits at a busy instance (R115, R141, R144): what its host does waits with it, the rest goes on. -/

namespace Sys2Proof.Machine

/-! ### The inputs behind a waiting word -/

/-- Every input of a host whose word waits at a busy instance waits. -/
theorem State.waits_of_host {s : State} {p : Port} {held : List Port} {x : Input} (hbusy : s.busyAt p = true)
    (hp : p ∈ held) (hx : x.hostPort? = some p) : s.waits held x = true := by
  cases x with
  | offer p' w =>
    obtain rfl : p' = p := by simpa [Input.hostPort?] using hx
    exact hbusy
  | reset p' w | resetDuringOutput p' w =>
    obtain rfl : p' = p := by simpa [Input.hostPort?] using hx
    exact List.contains_iff_mem.mpr hp
  | transfer | sinkReady => cases hx

/-- Whether an input waits that is not the host's of `p` does not depend on what is held up on `p`. -/
theorem State.waits_of_not_host {s : State} {p : Port} {held held' : List Port} {x : Input}
    (hheld : ∀ p', p' ≠ p → (p' ∈ held' ↔ p' ∈ held)) (hx : x.hostPort? ≠ some p) : s.waits held' x = s.waits held x := by
  cases x with
  | reset p' w => simp [State.waits, hheld p' (by simpa [Input.hostPort?] using hx)]
  | resetDuringOutput p' w => simp [State.waits, hheld p' (by simpa [Input.hostPort?] using hx)]
  | offer | transfer | sinkReady => rfl

/-- The inputs of a list that are not the host's of `p`. -/
def inputsOfOthers (p : Port) (is : List Input) : List Input := is.filter fun x => x.hostPort? != some p

theorem State.withoutHost_eq (p : Port) (s : State) : s.withoutHost p = s.setInputs (inputsOfOthers p s.inputs) := rfl

theorem inputsOfOthers_cons_host {p : Port} {x : Input} (is : List Input) (hx : x.hostPort? = some p) :
    inputsOfOthers p (x :: is) = inputsOfOthers p is := by
  simp [inputsOfOthers, hx]

theorem inputsOfOthers_cons_other {p : Port} {x : Input} (is : List Input) (hx : x.hostPort? ≠ some p) :
    inputsOfOthers p (x :: is) = x :: inputsOfOthers p is := by
  simp [inputsOfOthers, hx]

/-- Behind a word that waits on `p`, the next input is the one that is next without the inputs of `p`'s host. -/
theorem State.nextInput?_inputsOfOthers {s : State} {p : Port} {held held' : List Port} (hbusy : s.busyAt p = true)
    (hp : p ∈ held) (hheld : ∀ p', p' ≠ p → (p' ∈ held' ↔ p' ∈ held)) (is : List Input) :
    s.nextInput? held' (inputsOfOthers p is) =
      (s.nextInput? held is).map fun c => (c.1, inputsOfOthers p c.2) := by
  induction is generalizing held held' with
  | nil => rfl
  | cons x rest ih =>
    by_cases hx : x.hostPort? = some p
    · have hport : x.port = p := Input.port_of_hostPort? hx
      have hrest := ih (held := x.port :: held) (held' := held') (List.mem_cons_of_mem _ hp)
        fun p' hp' => by simp [hheld p' hp', hport, hp']
      rw [inputsOfOthers_cons_host rest hx, hrest]
      simp [State.nextInput?, State.waits_of_host hbusy hp hx, Function.comp_def, inputsOfOthers_cons_host _ hx]
    · have hrest := ih (held := x.port :: held) (held' := x.port :: held') (List.mem_cons_of_mem _ hp)
        fun p' hp' => by simp [hheld p' hp']
      rw [inputsOfOthers_cons_other rest hx]
      simp only [State.nextInput?, State.waits_of_not_host hheld hx, hrest]
      cases s.waits held x <;> simp [Function.comp_def, inputsOfOthers_cons_other _ hx]

/-- Which input of a list is next depends on the instances, not on the list the state holds. -/
@[simp] theorem State.nextInput?_setInputs (s : State) (is : List Input) (held : List Port) (js : List Input) :
    (s.setInputs is).nextInput? held js = s.nextInput? held js := by
  induction js generalizing held with
  | nil => rfl
  | cons x rest ih => simp [State.nextInput?, ih]

/-- The next input of a machine whose oldest input waits, without the inputs of the host of that input. -/
theorem State.nextInput?_withoutHost {s : State} {p : Port} {w : CmdWord} {rest : List Input}
    (hi : s.inputs = .offer p w :: rest) (hbusy : s.busyAt p = true) :
    (s.withoutHost p).nextInput? [] (s.withoutHost p).inputs =
      (s.nextInput? [] s.inputs).map fun c => (c.1, inputsOfOthers p c.2) := by
  have hhost : (Input.offer p w).hostPort? = some p := rfl
  have hwait : s.waits [] (.offer p w) = true := hbusy
  have hrest := State.nextInput?_inputsOfOthers hbusy (held := [p]) (held' := []) (by simp)
    (fun p' hp' => by simp [hp']) rest
  rw [State.withoutHost_eq, State.nextInput?_setInputs, State.setInputs_inputs, hi, inputsOfOthers_cons_host rest hhost,
    hrest]
  simp [State.nextInput?, hwait, Input.port, Function.comp_def, inputsOfOthers_cons_host _ hhost]

/-- While a word waits at a busy instance, the step is that of the machine in which its host does nothing, but for that
host's inputs. -/
theorem step_withoutHost {s : State} {p : Port} {w : CmdWord} {rest : List Input} (hi : s.inputs = .offer p w :: rest)
    (hbusy : s.busyAt p = true) : mapNext (State.withoutHost p) (step s) = step (s.withoutHost p) := by
  have hnext := State.nextInput?_withoutHost hi hbusy
  cases hn : s.nextInput? [] s.inputs with
  | none =>
    rw [step_no_input hn, step_no_input (hnext.trans (by rw [hn, Option.map_none]))]
    rfl
  | some c =>
    rw [step_of_nextInput hn, step_of_nextInput (hnext.trans (by rw [hn, Option.map_some])), State.withoutHost_eq,
      State.setInputs_setInputs, perform_setInputs, perform_setInputs]
    cases perform c.1 s <;> rfl

/-! ### A stalled sink -/

/-- The word `w` waits on `p` at an instance whose output port is `q`, busy, and whose sink is not ready and will not be by
any input (R144). -/
structure State.StalledAt (p : Port) (w : CmdWord) (q : SinkPort) (s : State) : Prop where
  offered : ∃ rest, s.inputs = .offer p w :: rest ∧ (.sinkReady p true) ∉ rest
  port : s.sinkAt? p = some q
  busy : q.undelivered ≠ 0
  notReady : q.ready = false

/-- A stalled instance is busy (R141). -/
theorem State.StalledAt.busyAt {s : State} {p : Port} {w : CmdWord} {q : SinkPort} (h : s.StalledAt p w q) :
    s.busyAt p = true := State.busyAt_iff.mpr ⟨q, h.port, h.busy⟩

/-- While a word waits at a busy instance, a step is an output cycle of every sink, or an input behind the word that is not
its host's. -/
theorem step_cases_of_waiting {s t : State} {p : Port} {w : CmdWord} {rest : List Input}
    (hi : s.inputs = .offer p w :: rest) (hbusy : s.busyAt p = true) (h : step s = .next t) :
    t = s.transferAll ∨
      ∃ x ∈ rest, ∃ rest', rest'.Sublist rest ∧ x.hostPort? ≠ some p ∧
        perform x (s.setInputs (.offer p w :: rest')) = .next t := by
  obtain ⟨-, -, rfl⟩ | ⟨pre, x, post, hs, -, -, hwait, hx⟩ := step_cases h
  · exact .inl rfl
  rw [hi] at hs
  cases pre with
  | nil =>
    obtain ⟨rfl, -⟩ := List.cons.inj hs
    simp [State.waits, hbusy] at hwait
  | cons y pre =>
    obtain ⟨rfl, rfl⟩ := List.cons.inj hs
    refine .inr ⟨x, by simp, pre ++ post, (List.sublist_cons_self x post).append_left pre, fun hhost => ?_, hx⟩
    have hmem : p ∈ ((Input.offer p w :: pre).map Input.port).reverse := by simp [Input.port]
    rw [State.waits_of_host hbusy hmem hhost] at hwait
    cases hwait

/-- What is not the host's leaves the port of a stalled instance alone, if it does not make the sink ready. -/
theorem perform_sinkAt?_of_stalled {s t : State} {x : Input} {p : Port} {q : SinkPort} (hq : s.sinkAt? p = some q)
    (hready : q.ready = false) (hhost : x.hostPort? ≠ some p) (hx : x ≠ .sinkReady p true) (h : perform x s = .next t) :
    t.sinkAt? p = some q := by
  by_cases hp : p = x.port
  · cases x with
    | offer | reset | resetDuringOutput => simp [Input.hostPort?, Input.port, hp] at hhost
    | transfer p' =>
      obtain rfl : p = p' := hp
      obtain ⟨-, -, rfl⟩ := atPort_next h
      rw [State.sinkAt?_onSinkAt hq, SinkPort.transfer_idle q (.inr hready)]
    | sinkReady p' r =>
      obtain rfl : p = p' := hp
      obtain rfl : r = false := by simpa using hx
      obtain ⟨-, -, rfl⟩ := atPort_next h
      rw [State.sinkAt?_onSinkAt hq, SinkPort.setReady, ← hready]
  · exact ((actsAt_perform x).sinkAt?_of_ne hp h).trans hq

/-- A stalled instance stays so, with the word and with its output port (R144). -/
theorem State.StalledAt.step {s t : State} {p : Port} {w : CmdWord} {q : SinkPort} (hs : s.StalledAt p w q)
    (h : step s = .next t) : t.StalledAt p w q := by
  have hbusyAt := hs.busyAt
  obtain ⟨⟨rest, hi, hnever⟩, hq, hbusy, hready⟩ := hs
  obtain rfl | ⟨x, hxmem, rest', hsub, hhost, hx⟩ := step_cases_of_waiting hi hbusyAt h
  · refine ⟨⟨rest, hi, hnever⟩, ?_, hbusy, hready⟩
    rw [State.sinkAt?_transferAll, hq, Option.map_some, SinkPort.transfer_idle q (.inr hready)]
  · refine ⟨⟨rest', perform_inputs hx, fun hmem => hnever (hsub.subset hmem)⟩, ?_, hbusy, hready⟩
    exact perform_sinkAt?_of_stalled (by simpa using hq) hready hhost (fun hxr => hnever (hxr ▸ hxmem)) hx

/-- A run behind a stalled sink is that of the machine in which the host of its instance does nothing. -/
theorem State.StalledAt.runSteps_withoutHost {s : State} {p : Port} {w : CmdWord} {q : SinkPort}
    (hs : s.StalledAt p w q) (n : Nat) :
    mapNext (State.withoutHost p) (runSteps n s) = runSteps n (s.withoutHost p) := by
  induction n generalizing s with
  | zero => rfl
  | succ n ih =>
    obtain ⟨rest, hi, -⟩ := hs.offered
    rw [runSteps_succ, runSteps_succ, ← step_withoutHost hi hs.busyAt]
    cases h : Machine.step s with
    | next t => exact ih (hs.step h)
    | fault r => rfl
    | refused r => rfl

/-- Settles O10: every input of the waiting word's host waits too, so the next input is the same without that host
(`step_withoutHost`), and a stalled sink keeps the word waiting (`State.StalledAt.step`). -/
theorem hangIsLocal : Obligations.HangIsLocal := by
  refine ⟨fun s p w rest q hi hq hbusy => ?_, fun s p w rest q n hi hq hbusy hready hnever => ?_⟩
  · exact step_withoutHost hi (State.busyAt_iff.mpr ⟨q, hq, hbusy⟩)
  · have hs : s.StalledAt p w q := ⟨⟨rest, hi, hnever⟩, hq, hbusy, hready⟩
    exact hs.runSteps_withoutHost n

end Sys2Proof.Machine
end

section
/-! SUPPORT. The busy rule over time (R115, R141, R144): a waiting word and its instance are left alone until the last byte is
accepted. -/

namespace Sys2Proof.Machine

/-! ### One step past a waiting word -/

theorem State.KeptAt.refl (p : Port) (s : State) : s.KeptAt p s := ⟨rfl, rfl, rfl⟩

theorem State.KeptAt.trans {p : Port} {s t u : State} (h : s.KeptAt p t) (h' : t.KeptAt p u) : s.KeptAt p u := by
  obtain ⟨hregs, hesc, hout⟩ := h
  obtain ⟨hregs', hesc', hout'⟩ := h'
  exact ⟨hregs'.trans hregs, hesc'.trans hesc, hout'.trans hout⟩

/-- A reset or a command at `p` is an input of its host. -/
theorem Input.not_driving_of_not_host {x : Input} {p : Port} (h : x.hostPort? ≠ some p) :
    x.isResetAt p = false ∧ x.isCommandAt p = false := by
  cases x with
  | offer p' w | reset p' w | resetDuringOutput p' w =>
    have hp : p' ≠ p := by simpa [Input.hostPort?] using h
    simp [Input.isResetAt, Input.isCommandAt, hp]
  | transfer | sinkReady => exact ⟨rfl, rfl⟩

/-- A step past a word that waits at a busy instance leaves the word the oldest input and keeps the instance (R141). -/
theorem step_of_waiting {s t : State} {p : Port} {w : CmdWord} {rest : List Input}
    (hi : s.inputs = .offer p w :: rest) (hbusy : s.busyAt p = true) (h : step s = .next t) :
    (∃ rest', t.inputs = .offer p w :: rest') ∧ s.KeptAt p t := by
  obtain rfl | ⟨x, -, rest', -, hhost, hx⟩ := step_cases_of_waiting hi hbusy h
  · exact ⟨⟨rest, hi⟩, State.keptAt_transferAll p s⟩
  · obtain ⟨hreset, hcmd⟩ := Input.not_driving_of_not_host hhost
    have hkept := State.keptAt_perform hreset hcmd hx
    exact ⟨⟨rest', perform_inputs hx⟩, by cases p <;> exact hkept⟩

/-- The step when the only input is a word that waits at a busy instance. -/
theorem step_of_sole_waiting {s : State} {p : Port} {w : CmdWord} (hi : s.inputs = [.offer p w])
    (hbusy : s.busyAt p = true) : step s = .next s.transferAll := by
  have hwait : s.waits [] (.offer p w) = true := hbusy
  exact step_no_input (by simp [hi, State.nextInput?, hwait])

/-- Settles O7: what a step takes past the waiting word is not its host's (`step_of_waiting`), and with no other input every
sink has an output cycle. -/
theorem busyPortHoldsOffer : Obligations.BusyPortHoldsOffer := by
  intro s p w rest q hi hq hne
  have hbusy : s.busyAt p = true := State.busyAt_iff.mpr ⟨q, hq, hne⟩
  refine ⟨fun t h => step_of_waiting hi hbusy h, ?_⟩
  rintro rfl
  refine ⟨s.transferAll, step_of_sole_waiting hi hbusy, rfl, ?_⟩
  rw [State.sinkAt?_transferAll, hq, Option.map_some]
  split
  case isTrue hready => rw [q.transfer_moves hne hready]
  case isFalse hready => rw [q.transfer_idle (.inr (by simpa using hready))]

/-! ### A sink that never accepts -/

/-- A run behind a stalled sink: the instance stays stalled, with its word, and is kept (R144). -/
theorem State.StalledAt.runSteps {n : Nat} {s t : State} {p : Port} {w : CmdWord} {q : SinkPort}
    (hs : s.StalledAt p w q) (h : runSteps n s = .next t) : t.StalledAt p w q ∧ s.KeptAt p t := by
  induction n generalizing s with
  | zero =>
    obtain rfl : s = t := by simpa using h
    exact ⟨hs, .refl p s⟩
  | succ n ih =>
    rw [runSteps_succ, andThen_eq_next_iff] at h
    obtain ⟨u, hu, hrest⟩ := h
    obtain ⟨rest, hi, -⟩ := hs.offered
    obtain ⟨-, hkept⟩ := step_of_waiting hi hs.busyAt hu
    obtain ⟨ht, hkept'⟩ := ih (hs.step hu) hrest
    exact ⟨ht, hkept.trans hkept'⟩

/-- Settles O9: a stalled instance is still stalled after any run (`State.StalledAt.runSteps`). -/
theorem stalledSinkHangs : Obligations.StalledSinkHangs := by
  intro s t p w rest q n hi hq hbusy hready hnever h
  have hs : s.StalledAt p w q := ⟨⟨rest, hi, hnever⟩, hq, hbusy, hready⟩
  obtain ⟨ht, hregs, hesc, -⟩ := hs.runSteps h
  obtain ⟨rest', hi', -⟩ := ht.offered
  exact ⟨⟨rest', hi'⟩, ht.port, hregs, hesc⟩

/-! ### A sink that stays ready -/

/-- The word `w` is offered on `p` at an instance whose output port is `q` and whose sink is ready, and stays so whatever
input is left (R144). -/
structure State.ReadyAt (p : Port) (w : CmdWord) (q : SinkPort) (s : State) : Prop where
  offered : ∃ rest, s.inputs = .offer p w :: rest ∧ (.sinkReady p false) ∉ rest
  port : s.sinkAt? p = some q
  ready : q.ready = true

/-- A step is an output cycle of every sink or takes an input off the list. -/
theorem step_transferAll_or_takes_input {s t : State} (h : step s = .next t) :
    t = s.transferAll ∨ t.inputs.length < s.inputs.length := by
  obtain ⟨-, -, rfl⟩ | ⟨pre, x, post, hi, -, -, -, hx⟩ := step_cases h
  · exact .inl rfl
  · right
    rw [perform_inputs hx, hi]
    simp

/-- What is not the host's gives the port of a ready sink an output cycle or leaves it alone, if it does not drive the ready
line low. -/
theorem perform_sinkAt?_of_ready {s t : State} {x : Input} {p : Port} {q : SinkPort} (hq : s.sinkAt? p = some q)
    (hready : q.ready = true) (hhost : x.hostPort? ≠ some p) (hx : x ≠ .sinkReady p false) (h : perform x s = .next t) :
    t.sinkAt? p = some q ∨ t.sinkAt? p = some q.transfer := by
  by_cases hp : p = x.port
  · cases x with
    | offer | reset | resetDuringOutput => simp [Input.hostPort?, Input.port, hp] at hhost
    | transfer p' =>
      obtain ⟨-, -, rfl⟩ := atPort_next h
      exact State.sinkAt?_onSinkAt_cases hq p' SinkPort.transfer
    | sinkReady p' r =>
      obtain rfl : p = p' := hp
      obtain rfl : r = true := by simpa using hx
      obtain ⟨-, -, rfl⟩ := atPort_next h
      rw [State.sinkAt?_onSinkAt hq, SinkPort.setReady, ← hready]
      exact .inl rfl
  · exact .inl (((actsAt_perform x).sinkAt?_of_ne hp h).trans hq)

/-- A step past a word that waits for a ready sink uses up a later input or a waiting byte. -/
theorem State.ReadyAt.step {s t : State} {p : Port} {w : CmdWord} {q : SinkPort} (hs : s.ReadyAt p w q)
    (hne : q.undelivered ≠ 0) (h : step s = .next t) :
    ∃ q', t.ReadyAt p w q' ∧ t.inputs.length + q'.undelivered < s.inputs.length + q.undelivered := by
  obtain ⟨⟨rest, hi, hnever⟩, hq, hready⟩ := hs
  have hbusy : s.busyAt p = true := State.busyAt_iff.mpr ⟨q, hq, hne⟩
  have hready' : q.transfer.ready = true := q.transfer_ready.trans hready
  have hmoves : q.transfer.undelivered < q.undelivered := by
    rw [q.transfer_moves hne hready]
    exact Nat.sub_one_lt hne
  have hcycle : s.transferAll.sinkAt? p = some q.transfer := by rw [State.sinkAt?_transferAll, hq, Option.map_some]
  obtain rfl | hlt := step_transferAll_or_takes_input h
  · exact ⟨q.transfer, ⟨⟨rest, hi, hnever⟩, hcycle, hready'⟩, Nat.add_lt_add_left hmoves _⟩
  obtain rfl | ⟨x, hxmem, rest', hsub, hhost, hx⟩ := step_cases_of_waiting hi hbusy h
  · exact absurd hlt (Nat.lt_irrefl _)
  have hoffered : ∃ rest, t.inputs = .offer p w :: rest ∧ (.sinkReady p false) ∉ rest :=
    ⟨rest', perform_inputs hx, fun hmem => hnever (hsub.subset hmem)⟩
  obtain hport | hport :=
    perform_sinkAt?_of_ready (by simpa using hq) hready hhost (fun hxr => hnever (hxr ▸ hxmem)) hx
  · exact ⟨q, ⟨hoffered, hport, hready⟩, by omega⟩
  · exact ⟨q.transfer, ⟨hoffered, hport, hready'⟩, by omega⟩

/-- With a ready sink a run that is long enough for the later inputs and the waiting bytes meets the instance idle, with the
word still offered. -/
theorem State.ReadyAt.exists_idle {n : Nat} {s t : State} {p : Port} {w : CmdWord} {q : SinkPort}
    (hs : s.ReadyAt p w q) (hn : s.inputs.length + q.undelivered ≤ n + 1) (h : runSteps n s = .next t) :
    ∃ (m : Nat) (u : State) (q' : SinkPort), m ≤ n ∧ Machine.runSteps m s = .next u ∧ u.ReadyAt p w q' ∧
      q'.undelivered = 0 ∧ s.KeptAt p u := by
  induction n generalizing s q with
  | zero =>
    have hidle : q.undelivered = 0 := by
      obtain ⟨rest, hi, -⟩ := hs.offered
      rw [hi, List.length_cons] at hn
      omega
    exact ⟨0, s, q, Nat.le_refl 0, rfl, hs, hidle, .refl p s⟩
  | succ n ih =>
    by_cases hidle : q.undelivered = 0
    · exact ⟨0, s, q, Nat.zero_le _, rfl, hs, hidle, .refl p s⟩
    · rw [runSteps_succ, andThen_eq_next_iff] at h
      obtain ⟨v, hv, hrest⟩ := h
      obtain ⟨rest, hi, -⟩ := hs.offered
      obtain ⟨-, hkept⟩ := step_of_waiting hi (State.busyAt_iff.mpr ⟨q, hs.port, hidle⟩) hv
      obtain ⟨q₁, hs₁, hlt⟩ := hs.step hidle hv
      obtain ⟨m, u, q', hm, hu, hs', hidle', hkept'⟩ := ih hs₁ (by omega) hrest
      refine ⟨m + 1, u, q', Nat.succ_le_succ hm, ?_, hs', hidle', hkept.trans hkept'⟩
      rw [runSteps_succ, hv]
      exact hu

/-- With no later input and a ready sink, as many steps as bytes wait deliver them and keep every instance. -/
theorem runSteps_of_sole_offer {n : Nat} {s : State} {p : Port} {w : CmdWord} {q : SinkPort}
    (hi : s.inputs = [.offer p w]) (hq : s.sinkAt? p = some q) (hready : q.ready = true) (hn : q.undelivered = n) :
    ∃ u, runSteps n s = .next u ∧ u.inputs = s.inputs ∧ u.sinkAt? p = some { q with undelivered := 0 } ∧
      ∀ p', s.KeptAt p' u := by
  induction n generalizing s q with
  | zero => exact ⟨s, rfl, rfl, by rw [hq, ← hn], fun p' => .refl p' s⟩
  | succ n ih =>
    have hne : q.undelivered ≠ 0 := by omega
    have hcycle : s.transferAll.sinkAt? p = some { q with undelivered := n } := by
      rw [State.sinkAt?_transferAll, hq, Option.map_some, q.transfer_moves hne hready, hn, Nat.add_sub_cancel]
    obtain ⟨u, hu, hin, hport, hkept⟩ := ih (s := s.transferAll) hi hcycle hready rfl
    refine ⟨u, ?_, hin, hport, fun p' => (State.keptAt_transferAll p' s).trans (hkept p')⟩
    rw [runSteps_succ, step_of_sole_waiting hi (State.busyAt_iff.mpr ⟨q, hq, hne⟩)]
    exact hu

/-- Settles O8: a step past the waiting word uses up a later input or a waiting byte (`State.ReadyAt.step`), and with no later
input each step is an output cycle of every sink. -/
theorem waitEndsWhenOutputDelivered : Obligations.WaitEndsWhenOutputDelivered := by
  intro s p w rest q hi hq hready
  refine ⟨fun t hnever h => ?_, ?_⟩
  · have hs : s.ReadyAt p w q := ⟨⟨rest, hi, hnever⟩, hq, hready⟩
    have hn : s.inputs.length + q.undelivered ≤ rest.length + q.undelivered + 1 := by
      rw [hi, List.length_cons]
      omega
    obtain ⟨m, u, q', hm, hu, hs', hidle, hregs, -, hout⟩ := hs.exists_idle hn h
    obtain ⟨rest', hi', -⟩ := hs'.offered
    have hout' : q'.out = q.out := by simpa [State.outAt?, hq, hs'.port] using hout
    exact ⟨m, u, rest', q', hm, hu, hi', hs'.port, hidle, hout', hregs⟩
  · rintro rfl
    exact runSteps_of_sole_offer hi hq hready rfl

end Sys2Proof.Machine
end

section
/-! SUPPORT. The reset step and the hardware event of a reset during delivery (R130, R132, R133, U6). -/

namespace Sys2Proof.Machine

/-- A reset of the `k`-th ENC instance replaces it alone (R133). -/
theorem State.resetAt_enc {s : State} {k : Nat} {e : EncInst} (hk : s.encs[k]? = some e) :
    s.resetAt (.enc k) = s.setEnc k e.reset := by
  simp [State.resetAt, State.setEnc, List.modify_eq_set_getElem?, hk]

/-- A reset of the `j`-th DEC instance replaces it alone (R133). -/
theorem State.resetAt_dec {s : State} {j : Nat} {d : DecInst} (hj : s.decs[j]? = some d) :
    s.resetAt (.dec j) = s.setDec j d.reset := by
  simp [State.resetAt, State.setDec, List.modify_eq_set_getElem?, hj]

theorem State.sinkAt?_enc {s : State} {k : Nat} {e : EncInst} (hk : s.encs[k]? = some e) :
    s.sinkAt? (.enc k) = some e.sink := by simp [State.sinkAt?, hk]

theorem State.sinkAt?_dec {s : State} {j : Nat} {d : DecInst} (hj : s.decs[j]? = some d) :
    s.sinkAt? (.dec j) = some d.sink := by simp [State.sinkAt?, hj]

/-- A reset leaves an idle port as it is (R34). -/
theorem SinkPort.reset_of_idle {q : SinkPort} (h : q.undelivered = 0) : q.reset = q := by
  rw [SinkPort.reset, SinkPort.delivered_of_idle h, ← h]

/-- The reset step of an idle instance (R132); the word offered with it is dropped (R115). -/
theorem step_reset_of_idle {s : State} {p : Port} {w : Option CmdWord} {rest : List Input} {q : SinkPort}
    (hi : s.inputs = .reset p w :: rest) (hq : s.sinkAt? p = some q) (hidle : q.undelivered = 0) :
    step s = .next ((s.setInputs rest).resetAt p) := by
  refine (step_head hi rfl).trans ?_
  simp [perform, resetStep, hq, SinkPort.busy, hidle]

/-- The reset step of a busy instance is refused (R132, U6). -/
theorem step_reset_of_busy {s : State} {p : Port} {w : Option CmdWord} {rest : List Input} {q : SinkPort}
    (hi : s.inputs = .reset p w :: rest) (hq : s.sinkAt? p = some q) (hbusy : q.undelivered ≠ 0) :
    step s = .refused (.resetWhileBusy p) := by
  refine (step_head hi rfl).trans ?_
  simp [perform, resetStep, hq, SinkPort.busy, hbusy]

/-- The event of a reset at whatever time (R130); the word offered with it is dropped (R115). -/
theorem step_resetDuringOutput {s : State} {p : Port} {w : Option CmdWord} {rest : List Input} {q : SinkPort}
    (hi : s.inputs = .resetDuringOutput p w :: rest) (hq : s.sinkAt? p = some q) :
    step s = .next ((s.setInputs rest).resetAt p) :=
  (step_head hi rfl).trans (atPort_of_sink _ (by simpa using hq))

/-- Settles O52: the step replaces the instance by its reset value, in which an idle port is as before. -/
theorem resetOfOneInstance : Obligations.ResetOfOneInstance := by
  refine ⟨fun s k e w rest hi hk hidle => ⟨e.reset, ?_, rfl, rfl, rfl, SinkPort.reset_of_idle hidle⟩,
    fun s j d w rest hi hj hidle => ⟨d.reset, ?_, rfl, rfl, rfl, SinkPort.reset_of_idle hidle⟩⟩
  · rw [step_reset_of_idle hi (State.sinkAt?_enc hk) hidle, State.resetAt_enc (by simpa using hk)]
    rfl
  · rw [step_reset_of_idle hi (State.sinkAt?_dec hj) hidle, State.resetAt_dec (by simpa using hj)]
    rfl

/-- Settles O54: the step replaces the instance by its reset value, whose stream is the delivered bytes. -/
theorem resetDuringOutputDiscardsWaiting : Obligations.ResetDuringOutputDiscardsWaiting := by
  refine ⟨fun s k e w rest hi hk => ⟨e.reset, ?_, rfl, rfl, rfl, rfl, rfl, rfl⟩,
    fun s j d w rest hi hj => ⟨d.reset, ?_, rfl, rfl, rfl, rfl, rfl, rfl⟩⟩
  · rw [step_resetDuringOutput hi (State.sinkAt?_enc hk), State.resetAt_enc (by simpa using hk)]
    rfl
  · rw [step_resetDuringOutput hi (State.sinkAt?_dec hj), State.resetAt_dec (by simpa using hj)]
    rfl

/-- Settles O53: the first step refuses the reset, and a run stops there. -/
theorem resetWhileBusyIsRefused : Obligations.ResetWhileBusyIsRefused := by
  intro s p w rest q n hi hq hbusy
  rw [runSteps_succ, step_reset_of_busy hi hq hbusy]
  rfl

end Sys2Proof.Machine
end

section
/-! SUPPORT. What no step changes, the escape bytes (R136), and how much one command emits (R77, R92, R148). -/

namespace Sys2Proof.Machine

/-! ### Escape bytes -/

/-- The instances of `s` and of `t` have the same escape bytes (R136). -/
def State.SameEscs (s t : State) : Prop :=
  t.encs.map EncInst.esc = s.encs.map EncInst.esc ∧ t.decs.map DecInst.esc = s.decs.map DecInst.esc

/-- A field of all elements that a change of one of them does not touch. -/
theorem map_modify_of_eq {α β : Type} {π : α → β} {f : α → α} (h : ∀ a, π (f a) = π a) (l : List α) (k : Nat) :
    (l.modify k f).map π = l.map π := by
  apply List.ext_getElem?
  intro m
  rw [List.getElem?_map, List.getElem?_map, getElem?_modify_map_of_eq h]

/-- A field of all elements that the replacement of one of them does not touch. -/
theorem map_set_of_eq {α β : Type} {π : α → β} {l : List α} {k : Nat} {a b : α} (hk : l[k]? = some a) (h : π b = π a) :
    (l.set k b).map π = l.map π := by
  obtain ⟨hlt, rfl⟩ := List.getElem?_eq_some_iff.mp hk
  rw [List.map_set, h, ← List.getElem_map π (h := by simpa using hlt), List.set_getElem_self]

/-- A transition of one ENC instance that keeps its ESC keeps all. -/
theorem State.sameEscs_onEnc {k : Nat} {f : EncInst → Except Fault EncInst} {s t : State}
    (hf : ∀ e e', f e = .ok e' → e'.esc = e.esc) (h : onEnc k f s = .next t) : s.SameEscs t := by
  obtain ⟨e, e', hk, he, rfl⟩ := onEnc_next h
  exact ⟨map_set_of_eq hk (hf e e' he), rfl⟩

/-- A transition of one DEC instance that keeps its ESC keeps all. -/
theorem State.sameEscs_onDec {j : Nat} {f : DecInst → Except Fault DecInst} {s t : State}
    (hf : ∀ d d', f d = .ok d' → d'.esc = d.esc) (h : onDec j f s = .next t) : s.SameEscs t := by
  obtain ⟨d, d', hj, hd, rfl⟩ := onDec_next h
  exact ⟨rfl, map_set_of_eq hj (hf d d' hd)⟩

/-- No command changes an escape byte (R31, R136). -/
theorem State.sameEscs_exec {i : Instr} {s t : State} (h : exec i s = .next t) : s.SameEscs t := by
  cases i with
  | encIngest k b =>
    refine State.sameEscs_onEnc (fun e e' hf => ?_) h
    obtain ⟨-, -, hesc, -⟩ := encIngestOn_emits hf
    exact hesc
  | encFlush k =>
    refine State.sameEscs_onEnc (fun e e' hf => ?_) h
    obtain ⟨-, -, hesc, -⟩ := flushCore_emits hf
    exact hesc
  | decIngest j b =>
    refine State.sameEscs_onDec (fun d d' hf => ?_) h
    obtain ⟨-, -, hesc, -⟩ := decIngestOn_emits hf
    exact hesc

/-- No reset changes an escape byte (R130, R136). -/
theorem State.sameEscs_resetAt (p : Port) (s : State) : s.SameEscs (s.resetAt p) := by
  cases p with
  | enc k => exact ⟨map_modify_of_eq EncInst.reset_esc s.encs k, rfl⟩
  | dec j => exact ⟨rfl, map_modify_of_eq DecInst.reset_esc s.decs j⟩

/-- No change of an output port changes an escape byte (R45). -/
theorem State.sameEscs_onSinkAt (p : Port) (f : SinkPort → SinkPort) (s : State) : s.SameEscs (s.onSinkAt p f) := by
  cases p with
  | enc k => exact ⟨map_modify_of_eq (EncInst.onSink_esc · f) s.encs k, rfl⟩
  | dec j => exact ⟨rfl, map_modify_of_eq (DecInst.onSink_esc · f) s.decs j⟩

/-- No step changes an escape byte (R136). -/
theorem State.sameEscs_step {s t : State} (h : step s = .next t) : s.SameEscs t := by
  obtain ⟨-, -, rfl⟩ | ⟨pre, x, post, -, -, -, -, hx⟩ := step_cases h
  · simp [State.SameEscs]
  suffices hsame : (s.setInputs (pre ++ post)).SameEscs t from hsame
  obtain ⟨-, -, i, -, -, hi⟩ | ⟨p, -, -, -, -, -, rfl⟩ | ⟨p, -, -, -, -, rfl⟩ | ⟨p, -, -, -, rfl⟩ |
    ⟨p, r, -, -, -, rfl⟩ := perform_cases hx
  · exact State.sameEscs_exec hi
  · exact State.sameEscs_resetAt p _
  · exact State.sameEscs_resetAt p _
  · exact State.sameEscs_onSinkAt p _ _
  · exact State.sameEscs_onSinkAt p _ _

/-- Settles O48: a step is a command, a reset or a change of output ports, and none of these touches ESC. -/
theorem escapeByteNeverChanges : Obligations.EscapeByteNeverChanges :=
  ⟨fun _ _ => State.sameEscs_step, fun _ _ _ => State.sameEscs_exec⟩

/-! ### The work of one command -/

/-- From `s` to `t` the instance on `p` emits at most `n` bytes, and these wait for its sink in addition (R141). -/
def State.EmitsAtMost (p : Port) (n : Nat) (s t : State) : Prop :=
  ∀ q, s.sinkAt? p = some q → ∃ vs : List Byte, vs.length ≤ n ∧ t.sinkAt? p = some (q.emitAll vs)

/-- A transition of one ENC instance that emits at most `n` bytes there. -/
theorem State.emitsAtMost_onEnc {k n : Nat} {f : EncInst → Except Fault EncInst} {s t : State}
    (hf : ∀ e e', f e = .ok e' → ∃ vs : List Byte, vs.length ≤ n ∧ e'.sink = e.sink.emitAll vs)
    (h : onEnc k f s = .next t) : s.EmitsAtMost (.enc k) n t := by
  intro q hq
  obtain ⟨e, e', hk, he, rfl⟩ := onEnc_next h
  obtain rfl : e.sink = q := Option.some.inj ((State.sinkAt?_enc hk).symm.trans hq)
  obtain ⟨vs, hlen, hsink⟩ := hf e e' he
  exact ⟨vs, hlen, by rw [State.sinkAt?_enc (State.setEnc_getElem? hk), hsink]⟩

/-- A transition of one DEC instance that emits at most `n` bytes there. -/
theorem State.emitsAtMost_onDec {j n : Nat} {f : DecInst → Except Fault DecInst} {s t : State}
    (hf : ∀ d d', f d = .ok d' → ∃ vs : List Byte, vs.length ≤ n ∧ d'.sink = d.sink.emitAll vs)
    (h : onDec j f s = .next t) : s.EmitsAtMost (.dec j) n t := by
  intro q hq
  obtain ⟨d, d', hj, hd, rfl⟩ := onDec_next h
  obtain rfl : d.sink = q := Option.some.inj ((State.sinkAt?_dec hj).symm.trans hq)
  obtain ⟨vs, hlen, hsink⟩ := hf d d' hd
  exact ⟨vs, hlen, by rw [State.sinkAt?_dec (State.setDec_getElem? hj), hsink]⟩

/-- The largest output of one command on a port: a frame or three literals at an encoder (R77), a run at a decoder (R92). -/
def maxWork : Port → Nat
  | .enc _ => 3
  | .dec _ => 255

/-- The bounds of R148, command by command. -/
theorem State.emitsAtMost_exec {i : Instr} {s t : State} (h : exec i s = .next t) :
    s.EmitsAtMost i.port (maxWork i.port) t := by
  cases i with
  | encIngest k b =>
    refine State.emitsAtMost_onEnc (fun e e' he => ?_) h
    obtain ⟨vs, hlen, -, hsink, -⟩ := encIngestOn_emits he
    exact ⟨vs, hlen, hsink⟩
  | encFlush k =>
    refine State.emitsAtMost_onEnc (fun e e' he => ?_) h
    obtain ⟨vs, hlen, -, -, hsink⟩ := flushCore_emits he
    exact ⟨vs, hlen, hsink⟩
  | decIngest j b =>
    refine State.emitsAtMost_onDec (fun d d' hd => ?_) h
    obtain ⟨vs, hlen, -, hsink, -⟩ := decIngestOn_emits hd
    exact ⟨vs, hlen, hsink⟩

/-- Settles O50: each command only appends to the stream of its instance, at most 3 bytes (`flushBytes_length_le`) or as many
as a count byte says. -/
theorem workPerCommand : Obligations.WorkPerCommand := by
  intro s t i q h hq
  obtain ⟨vs, hlen, ht⟩ := State.emitsAtMost_exec h q hq
  exact ⟨q.emitAll vs, vs, ht, rfl, rfl, hlen⟩

end Sys2Proof.Machine
end
